-- ==== Sys2Proof/Config.lean ====
section
/-! DEFINITION. Config: what is fixed for this hardware (spec/00_scope.md section 4). -/

namespace Sys2Proof

/-- R7: the ALU bit-width `W`; this hardware takes `W = 16`. -/
def Config.W : Nat := 16

/-- R10: the type of `REG_RESET = (a0, b0, c0)`, the values of A, B, C after reset. -/
structure RegReset where
  a : Int
  b : Int
  c : Int
deriving DecidableEq, Repr

/-- R10, R24, D8: the spec leaves `REG_RESET` OPEN and recommends `(0, 0, 0)` for simulation.
DESIGN CHOICE, unsafe (log entry 2): the value `State.reset` takes.  `State.resetWith` takes every
other one. -/
def Config.regReset : RegReset := ⟨0, 0, 0⟩

end Sys2Proof
end

