-- ==== Sys2Proof/Word.lean ====
section
/-! DEFINITION. Word: the bit vectors and the cell (spec/00_scope.md R11, spec/30_encoding.md R60,
R61). -/

namespace Sys2Proof

/-- R61: one cell in binary form, 22 bits: `opc` [21:18], `P` [17], `imm` [16:0]. -/
abbrev CellWord := BitVec 22

/-- R60: the opcode index, one of 16 slots. -/
abbrev OpIndex := BitVec 4

/-- R61: the operand field, 17 bits of two's complement. -/
abbrev Imm := BitVec 17

/-- R11, R60: a cell, the pair of an opcode index and an optional operand. -/
structure Cell where
  opc : OpIndex
  opd : Option Int
deriving DecidableEq, Repr

end Sys2Proof
end

