-- ==== Sys2Proof/Machine/Operands.lean ====
section
/-! DEFINITION. Operands: the range predicate of registers and results, and the range of the operand
field (spec/41_alu.md R100, spec/30_encoding.md R62, R68). -/

namespace Sys2Proof

/-- R100: `fits_W(v) := |v| < 2^W`, the one definition of fitting (D4, D5, D30).  It is the ALU's
success condition, the register value domain `D_W` (R21), and the range of a load's operand (R68). -/
def fitsW (v : Int) : Bool := decide (v.natAbs < 2 ^ Config.W)

/-- R62: the values the 17-bit operand field can hold, `-65536 .. 65535`. -/
def operandEncodable (v : Int) : Bool :=
  decide (-(2 ^ Config.W : Int) ≤ v) && decide (v < 2 ^ Config.W)

/-- The operand of a cell, if there is one, fits the operand field (R70). -/
def optEncodable : Option Int → Bool
  | none => true
  | some v => operandEncodable v

/-- R131: `0 <= t < SIZE`, the test `set` makes of a jump target. -/
def validTarget (size : Nat) (t : Int) : Bool := decide (0 ≤ t) && decide (t < size)

end Sys2Proof
end

