-- ==== Sys2Proof/Syntax.lean ====
section
/-! DEFINITION. Syntax: one constructor per row of spec/opcode_table.json (R64), in the order of the
opcode index. -/

namespace Sys2Proof

/-- R64: the 14 named instructions and the two reserved slots.  An operand stands here as the integer
it denotes (R62); a cell of a named opcode with the wrong operand form is no instruction (R67) and is
rejected by the decoder.  The reserved slots 13 and 14 are rows of the table with any operand (R66). -/
inductive Instr where
  | noOp
  | loadAi (v : Int)
  | loadBi (v : Int)
  | addAb
  | subAb
  | jump (t : Int)
  | jumpEq (t : Int)
  | jumpGt (t : Int)
  | jumpLt (t : Int)
  | swapAb
  | swapAc
  | incA
  | cmpAb
  | reserved13 (opd : Option Int)
  | reserved14 (opd : Option Int)
  | halt
deriving DecidableEq, Repr

end Sys2Proof
end

