-- ==== Sys2Proof/WellFormed.lean ====
section
/-! DEFINITION. WellFormed: the operands an instruction's cell can carry (spec/30_encoding.md R62, R64,
R68). -/

namespace Sys2Proof

/-- R62, R64, R68: a load's value is in `D_W`; a jump's operand is any value of the operand field (a
target outside memory is a legal encoding, R69); a reserved slot has any operand or none. -/
def Instr.wellFormed : Instr → Bool
  | .noOp => true
  | .loadAi v => fitsW v
  | .loadBi v => fitsW v
  | .addAb => true
  | .subAb => true
  | .jump t => operandEncodable t
  | .jumpEq t => operandEncodable t
  | .jumpGt t => operandEncodable t
  | .jumpLt t => operandEncodable t
  | .swapAb => true
  | .swapAc => true
  | .incA => true
  | .cmpAb => true
  | .reserved13 opd => optEncodable opd
  | .reserved14 opd => optEncodable opd
  | .halt => true

end Sys2Proof
end

