-- ==== Sys2Proof/Decode.lean ====
section
/-! DEFINITION. Decode: from 22-bit words to cells to instructions, and back (spec/30_encoding.md R60 to
R70, spec/40_cycle.md R84, R85). -/

namespace Sys2Proof

/-- R85: why a cell of a named opcode is no instruction.  Each of the three is the fatal error
`InvalidOperand` (R165 (a), (b), (c)); the cell is kept because `ERR` records it. -/
inductive DecodeError where
  /-- R165 (a): the opcode requires an operand and the cell has none. -/
  | operandMissing (cell : Cell)
  /-- R165 (b): the opcode forbids an operand and the cell has one. -/
  | operandForbidden (cell : Cell)
  /-- R165 (c): the operand of a load is outside `D_W`. -/
  | operandOutOfRange (cell : Cell)
deriving DecidableEq, Repr

/-- The rejected cell. -/
def DecodeError.cell : DecodeError → Cell
  | .operandMissing cell => cell
  | .operandForbidden cell => cell
  | .operandOutOfRange cell => cell

/-- R61: `opc`, bits 21:18. -/
def opcField (w : CellWord) : OpIndex := w.extractLsb' 18 4

/-- R61: `P`, bit 17. -/
def presentBit (w : CellWord) : Bool := w.getLsbD 17

/-- R61: `imm`, bits 16:0. -/
def immField (w : CellWord) : Imm := w.extractLsb' 0 17

/-- R62: `opd(w) = if w[17] == 1 then some(sext_17(w[16:0])) else none`. -/
def operandOf (w : CellWord) : Option Int :=
  if presentBit w then some (immField w).toInt else none

/-- R63: every 22-bit word decodes to a cell. -/
def decodeCell (w : CellWord) : Cell := { opc := opcField w, opd := operandOf w }

/-- R85, first line: a kind that needs an operand (the jumps). -/
def requireOperand (c : Cell) (make : Int → Instr) : Except DecodeError Instr :=
  match c.opd with
  | some v => .ok (make v)
  | none => .error (.operandMissing c)

/-- R85, first and third lines: a kind that needs an operand of `D_W` (the loads). -/
def requireValue (c : Cell) (make : Int → Instr) : Except DecodeError Instr :=
  match c.opd with
  | some v => if fitsW v then .ok (make v) else .error (.operandOutOfRange c)
  | none => .error (.operandMissing c)

/-- R85, second line: a kind that forbids an operand. -/
def forbidOperand (c : Cell) (i : Instr) : Except DecodeError Instr :=
  match c.opd with
  | some _ => .error (.operandForbidden c)
  | none => .ok i

/-- R64, R69, R84, R85: the 16 slots and the operand form of each.  The opcode check comes first, so a
reserved slot is a reserved slot whatever its operand.  The index has 4 bits, so the last arm is 15 and
nothing else (`classify_opc15`). -/
def classify (c : Cell) : Except DecodeError Instr :=
  match c.opc.toNat with
  | 0 => forbidOperand c .noOp
  | 1 => requireValue c .loadAi
  | 2 => requireValue c .loadBi
  | 3 => forbidOperand c .addAb
  | 4 => forbidOperand c .subAb
  | 5 => requireOperand c .jump
  | 6 => requireOperand c .jumpEq
  | 7 => requireOperand c .jumpGt
  | 8 => requireOperand c .jumpLt
  | 9 => forbidOperand c .swapAb
  | 10 => forbidOperand c .swapAc
  | 11 => forbidOperand c .incA
  | 12 => forbidOperand c .cmpAb
  | 13 => .ok (.reserved13 c.opd)
  | 14 => .ok (.reserved14 c.opd)
  | _ => forbidOperand c .halt

/-- R63, R69: the instruction a 22-bit word stands for, or the name of what is wrong with it. -/
def decode (w : CellWord) : Except DecodeError Instr := classify (decodeCell w)

/-- R64: the cell of an instruction. -/
def Instr.toCell : Instr → Cell
  | .noOp => ⟨0#4, none⟩
  | .loadAi v => ⟨1#4, some v⟩
  | .loadBi v => ⟨2#4, some v⟩
  | .addAb => ⟨3#4, none⟩
  | .subAb => ⟨4#4, none⟩
  | .jump t => ⟨5#4, some t⟩
  | .jumpEq t => ⟨6#4, some t⟩
  | .jumpGt t => ⟨7#4, some t⟩
  | .jumpLt t => ⟨8#4, some t⟩
  | .swapAb => ⟨9#4, none⟩
  | .swapAc => ⟨10#4, none⟩
  | .incA => ⟨11#4, none⟩
  | .cmpAb => ⟨12#4, none⟩
  | .reserved13 opd => ⟨13#4, opd⟩
  | .reserved14 opd => ⟨14#4, opd⟩
  | .halt => ⟨15#4, none⟩

/-- R61, R70: the `P` and `imm` fields of an operand, `imm = v mod 2^17`, and zero when there is
none. -/
def encodeOperand : Option Int → Bool × Imm
  | none => (false, 0#17)
  | some v => (true, BitVec.ofInt 17 v)

/-- R70: the canonical word of a cell, `(opc << 18) | (P << 17) | imm`. -/
def encodeCell (c : Cell) : CellWord :=
  BitVec.ofNat 22 (c.opc.toNat * 2 ^ 18 + (encodeOperand c.opd).1.toNat * 2 ^ 17 +
    (encodeOperand c.opd).2.toNat)

/-- R70: the canonical word of an instruction. -/
def encode (i : Instr) : CellWord := encodeCell i.toCell

/-- The host's entry: the instruction the decoder reads from a row of spec/opcode_table.json whose
bits are `w`.  Every row is one 22-bit cell; a number with a bit set above bit 21 is no cell, and is
refused (log entry 12). -/
def decodeTableWord (nbits w : Nat) : Option Instr :=
  if w % 2 ^ nbits < 2 ^ 22 then (decode (BitVec.ofNat 22 (w % 2 ^ nbits))).toOption else none

end Sys2Proof
end

