-- ==== Sys2Proof/Machine/Alu.lean ====
section
/-! DEFINITION. Alu: add, subtract and increment (spec/41_alu.md R100 to R107). -/

namespace Sys2Proof.Machine

/-- R101: the explicit result of an ALU operation.  `ok 0` and `overflow` differ (R105). -/
inductive AluResult where
  | ok (v : Int)
  | overflow
deriving DecidableEq, Repr

/-- R100, R101: the exact result is computed first and only then tested; nothing wraps. -/
def aluResult (exact : Int) : AluResult := if fitsW exact then .ok exact else .overflow

/-- R102: the result of `add`. -/
def aluAdd (a b : Int) : AluResult := aluResult (a + b)

/-- R103: the result of `subtract`. -/
def aluSubtract (a b : Int) : AluResult := aluResult (a - b)

/-- R104: the result of `increment`. -/
def aluIncrement (a : Int) : AluResult := aluResult (a + 1)

end Sys2Proof.Machine
end

