-- ==== Sys2Proof/Machine/State.lean ====
section
/-! DEFINITION. State: all state the spec gives the block (spec/10_state.md R20), with the two
parameters of a run that its step reads, the image and SIZE (log entry 1). -/

namespace Sys2Proof.Machine

/-- Why a step can stop with a fault. -/
inductive Fault where
  /-- Raised by the fetch alone, when `pc` is not an address of the image (`pc >= SIZE`).  R37 and R45
  say that no reachable state fetches there.  Safe (log entry 7). -/
  | fetchOutsideImage
deriving DecidableEq, Repr

/-- Why a step can be refused. -/
inductive Refusal where
  /-- Raised by an arm of `exec` whose instruction has no meaning yet.  No arm does.  Safe. -/
  | notModelled (mnemonic : String)
deriving DecidableEq, Repr

/-- R22: the three general registers. -/
inductive Reg where
  | A
  | B
  | C
deriving DecidableEq, Repr

/-- R35, R162: the cause held in the error latch. -/
inductive ErrCause where
  | none
  | invalidOpcode
  | invalidAddress
  | invalidOperand
deriving DecidableEq, Repr

/-- R35: the error latch `ERR`, four fields written together by a fatal error and by nothing else. -/
structure ErrLatch where
  cause : ErrCause
  addr : Nat
  opc : OpIndex
  opd : Option Int
deriving DecidableEq, Repr

/-- R35, R38: the reset value of `ERR`, `(0, 0, 0, none)`. -/
def ErrLatch.reset : ErrLatch := { cause := .none, addr := 0, opc := 0#4, opd := .none }

/-- R40, R41: the instruction memory, addresses `0 .. size - 1`, one 22-bit cell each (log entries 3
and 4).  `cells` lists, addresses rising, the cells that differ from what an unlisted address reads
as. -/
structure Memory where
  size : Nat
  cells : List (Nat × CellWord)
deriving DecidableEq, Repr

/-- R8, R181, R184: no program loaded, `SIZE = 1`: nothing is listed, and the one address reads as the
appended HALT (log entry 3). -/
def Memory.empty : Memory := { size := 1, cells := [] }

/-- R20: the state of the block, and the image and SIZE of the run (log entry 1). -/
structure State where
  /-- `x[A]`, R21, R22 -/
  a : Int
  /-- `x[B]`, R21, R22 -/
  b : Int
  /-- `x[C]`, R21, R22 -/
  c : Int
  /-- R25 -/
  pc : Nat
  /-- R30 -/
  zero : Bool
  /-- R30 -/
  negative : Bool
  /-- R34 -/
  halted : Bool
  /-- R35 -/
  err : ErrLatch
  /-- R40, R8: the image and SIZE; no step writes them -/
  mem : Memory
deriving DecidableEq, Repr

/-- R38, R180: the state after reset, for a value of `REG_RESET` and an image the host has placed. -/
def State.resetWith (r : RegReset) (m : Memory) : State :=
  { a := r.a, b := r.b, c := r.c, pc := 0, zero := false, negative := false, halted := false,
    err := ErrLatch.reset, mem := m }

/-- R38: the machine right after reset, with no program loaded.  A, B, C take the value `Config`
names (log entry 2). -/
def State.reset : State := State.resetWith Config.regReset Memory.empty

end Sys2Proof.Machine
end

