-- ==== Sys2Proof/Machine/Flags.lean ====
section
/-! DEFINITION. Flags: the flag writes of add and subtract, and the three jump conditions
(spec/10_state.md R30, spec/41_alu.md R102, R103, spec/44_control_flow.md R133 to R135). -/

namespace Sys2Proof.Machine

/-- R102: `add` with result `Ok(r)` writes `zero <- (r == 0)` and never `negative`. -/
def State.writeAddFlags (s : State) (r : Int) : State := { s with zero := decide (r = 0) }

/-- R103: `subtract` with result `Ok(r)` writes `zero <- (r == 0)` and `negative <- (r < 0)`. -/
def State.writeSubFlags (s : State) (r : Int) : State :=
  { s with zero := decide (r = 0), negative := decide (r < 0) }

/-- R133: the condition of JUMP_EQ. -/
def condEq (s : State) : Bool := s.zero

/-- R134: the condition of JUMP_GT. -/
def condGt (s : State) : Bool := !s.zero && !s.negative

/-- R135: the condition of JUMP_LT. -/
def condLt (s : State) : Bool := !s.zero && s.negative

end Sys2Proof.Machine
end

