-- ==== Sys2Proof/Machine/Ops.lean ====
section
/-! DEFINITION. Ops: the named operations over registers, program counter and memory, the jump's `set`,
the fatal stop, and reset during a run. -/

namespace Sys2Proof.Machine

/-- R12: `x[r]`. -/
def State.getReg (s : State) : Reg → Int
  | .A => s.a
  | .B => s.b
  | .C => s.c

/-- R12: `x[r] <- v`. -/
def State.setReg (s : State) (r : Reg) (v : Int) : State :=
  match r with
  | .A => { s with a := v }
  | .B => { s with b := v }
  | .C => { s with c := v }

/-- R26: `advance(p) = if p == SIZE - 1 then 0 else p + 1`. -/
def advance (size p : Nat) : Nat := if p = size - 1 then 0 else p + 1

/-- R82, R83: the fetch step's write of the pc, made for every instruction before it executes.  The
meanings take the state before the fetch, whose pc is the instruction's address `k`, and make this
write first (log entry 6). -/
def State.advancePc (s : State) : State := { s with pc := advance s.mem.size s.pc }

/-- R168: `raise cause(k, opc, opd)`, taken from the state before the fetch, whose pc is `k`: the pc
keeps `advance(k)`, `ERR` is written and `halted` set, and nothing else changes.  There is no return
from it (R169); only reset leaves the stop. -/
def raiseFatal (cause : ErrCause) (cell : Cell) (s : State) : State :=
  { s.advancePc with
    halted := true
    err := { cause := cause, addr := s.pc, opc := cell.opc, opd := cell.opd } }

/-- R131: `set(t)`, the pc write of a taken jump whose opcode is `opc`, from the state before the
fetch. -/
def setPc (opc : OpIndex) (t : Int) (s : State) : State :=
  if validTarget s.mem.size t then { s.advancePc with pc := t.toNat }
  else raiseFatal .invalidAddress ⟨opc, some t⟩ s

/-- R87, `jump(s1, cond, v)`: a jump whose condition is false leaves the advanced pc and does not look
at its target (R131, D13). -/
def jumpIf (cond : Bool) (opc : OpIndex) (t : Int) (s : State) : State :=
  if cond then setPc opc t s else s.advancePc

/-- R136, R34: `halted <- true`. -/
def State.setHalted (s : State) : State := { s with halted := true }

/-- R142, R180: reset during a run.  Nothing survives but the image; `r` is `REG_RESET`. -/
def State.restartWith (r : RegReset) (s : State) : State := State.resetWith r s.mem

/-- R64, R184: the word of HALT without operand, which the image builder appends.  It is what an
unlisted address of the image reads as (DESIGN CHOICE, unsafe, log entry 3). -/
def haltWord : CellWord := 0x3C0000#22

/-- The cell listed at an address, or what an unlisted address reads as. -/
def lookupCell : List (Nat × CellWord) → Nat → CellWord
  | [], _ => haltWord
  | (k, w) :: rest, p => if k = p then w else lookupCell rest p

/-- R45: `MemRead(addr, 1)`; there is no cell outside `0 .. SIZE-1` (R44). -/
def Memory.read (m : Memory) (p : Nat) : Option CellWord :=
  if p < m.size then some (lookupCell m.cells p) else none

/-- The list with the cell at `p` replaced; the canonical form is kept. -/
def storeCell (p : Nat) (w : CellWord) : List (Nat × CellWord) → List (Nat × CellWord)
  | [] => if w = haltWord then [] else [(p, w)]
  | (k, x) :: rest =>
    if k < p then (k, x) :: storeCell p w rest
    else if k = p then (if w = haltWord then rest else (p, w) :: rest)
    else if w = haltWord then (k, x) :: rest else (p, w) :: (k, x) :: rest

/-- R8, R184: the SIZE of an image that has a cell at `p` and, where SIZE's bound leaves room, the
appended HALT after it; an image already larger keeps its SIZE. -/
def sizeHolding (size p : Nat) : Nat := max size (max (p + 1) (min (p + 2) (2 ^ Config.W)))

/-- R151 (Load): the host places one cell of the image.  No instruction does this (R46). -/
def Memory.place (m : Memory) (p : Nat) (w : CellWord) : Memory :=
  { size := sizeHolding m.size p, cells := storeCell p w m.cells }

/-- The canonical form of the image: addresses strictly rising, none listed that an unlisted address
would read the same as, none outside the image. -/
abbrev Memory.wf (m : Memory) : Prop :=
  m.cells.Pairwise (fun x y => x.1 < y.1) ∧ ∀ x ∈ m.cells, x.2 ≠ haltWord ∧ x.1 < m.size

end Sys2Proof.Machine
end

