-- ==== Sys2Proof/Machine/Arithmetic.lean ====
section
/-! DEFINITION. Arithmetic: ADD_AB, SUB_AB, INC_A, CMP_AB (spec/43_arithmetic.md).  On Overflow each
changes nothing but the pc, which the fetch has advanced (R107, R120). -/

namespace Sys2Proof.Machine

/-- R121: C := A + B through `add`. -/
def execAddAb (s : State) : Host.Outcome State Fault Refusal :=
  match aluAdd (s.getReg .A) (s.getReg .B) with
  | .ok r => .next ((s.advancePc.writeAddFlags r).setReg .C r)
  | .overflow => .next s.advancePc

/-- R122: C := A - B through `subtract`. -/
def execSubAb (s : State) : Host.Outcome State Fault Refusal :=
  match aluSubtract (s.getReg .A) (s.getReg .B) with
  | .ok r => .next ((s.advancePc.writeSubFlags r).setReg .C r)
  | .overflow => .next s.advancePc

/-- R123: A := A + 1 through `increment`; no flag. -/
def execIncA (s : State) : Host.Outcome State Fault Refusal :=
  match aluIncrement (s.getReg .A) with
  | .ok r => .next (s.advancePc.setReg .A r)
  | .overflow => .next s.advancePc

/-- R124: the flags of A - B; the result is discarded. -/
def execCmpAb (s : State) : Host.Outcome State Fault Refusal :=
  match aluSubtract (s.getReg .A) (s.getReg .B) with
  | .ok r => .next (s.advancePc.writeSubFlags r)
  | .overflow => .next s.advancePc

end Sys2Proof.Machine
end

