-- ==== Sys2Proof/Machine/ControlFlow.lean ====
section
/-! DEFINITION. ControlFlow: JUMP, JUMP_EQ, JUMP_GT, JUMP_LT, HALT, NO_OP (spec/44_control_flow.md) and
the two reserved slots (spec/30_encoding.md R66, spec/60_exceptions.md R163). -/

namespace Sys2Proof.Machine

/-- R132: `set(t)`. -/
def execJump (t : Int) (s : State) : Host.Outcome State Fault Refusal :=
  .next (jumpIf true 5#4 t s)

/-- R133: `if zero then set(t)`. -/
def execJumpEq (t : Int) (s : State) : Host.Outcome State Fault Refusal :=
  .next (jumpIf (condEq s) 6#4 t s)

/-- R134: `if (not zero) and (not negative) then set(t)`. -/
def execJumpGt (t : Int) (s : State) : Host.Outcome State Fault Refusal :=
  .next (jumpIf (condGt s) 7#4 t s)

/-- R135: `if (not zero) and negative then set(t)`. -/
def execJumpLt (t : Int) (s : State) : Host.Outcome State Fault Refusal :=
  .next (jumpIf (condLt s) 8#4 t s)

/-- R136: `halted <- true`; the pc keeps the value the fetch gave it. -/
def execHalt (s : State) : Host.Outcome State Fault Refusal :=
  .next s.advancePc.setHalted

/-- R137: nothing but the fetch's advance of the pc. -/
def execNoOp (s : State) : Host.Outcome State Fault Refusal :=
  .next s.advancePc

/-- R66, R84, R163: slot 13, whatever its operand, is the fatal stop `InvalidOpcode`. -/
def execReserved13 (opd : Option Int) (s : State) : Host.Outcome State Fault Refusal :=
  .next (raiseFatal .invalidOpcode ⟨13#4, opd⟩ s)

/-- R66, R84, R163: slot 14, whatever its operand, is the fatal stop `InvalidOpcode`. -/
def execReserved14 (opd : Option Int) (s : State) : Host.Outcome State Fault Refusal :=
  .next (raiseFatal .invalidOpcode ⟨14#4, opd⟩ s)

end Sys2Proof.Machine
end

