-- ==== Sys2Proof/Machine/DataMovement.lean ====
section
/-! DEFINITION. DataMovement: LOAD_AI, LOAD_BI, SWAP_AB, SWAP_AC (spec/42_data_movement.md).  Each
meaning takes the state before the fetch, whose pc is the instruction's address (log entry 6). -/

namespace Sys2Proof.Machine

/-- R111: `x[A] <- v`. -/
def execLoadAi (v : Int) (s : State) : Host.Outcome State Fault Refusal :=
  .next (s.advancePc.setReg .A v)

/-- R112: `x[B] <- v`. -/
def execLoadBi (v : Int) (s : State) : Host.Outcome State Fault Refusal :=
  .next (s.advancePc.setReg .B v)

/-- R113: A and B exchanged; both right-hand sides are the values before the instruction. -/
def execSwapAb (s : State) : Host.Outcome State Fault Refusal :=
  .next ((s.advancePc.setReg .A (s.getReg .B)).setReg .B (s.getReg .A))

/-- R114: A and C exchanged; both right-hand sides are the values before the instruction. -/
def execSwapAc (s : State) : Host.Outcome State Fault Refusal :=
  .next ((s.advancePc.setReg .A (s.getReg .C)).setReg .C (s.getReg .A))

end Sys2Proof.Machine
end

