-- ==== Sys2Proof/Machine/Dispatch.lean ====
section
/-! DEFINITION. Dispatch: the meaning of each instruction (spec/40_cycle.md R86), one arm per
constructor.  `exec i s` is the whole Cycle of an instruction `i` fetched from `s.pc`. -/

namespace Sys2Proof.Machine

def exec (i : Instr) (s : State) : Host.Outcome State Fault Refusal :=
  match i with
  | .noOp => Sys2Proof.Machine.execNoOp s
  | .loadAi v => Sys2Proof.Machine.execLoadAi v s
  | .loadBi v => Sys2Proof.Machine.execLoadBi v s
  | .addAb => Sys2Proof.Machine.execAddAb s
  | .subAb => Sys2Proof.Machine.execSubAb s
  | .jump t => Sys2Proof.Machine.execJump t s
  | .jumpEq t => Sys2Proof.Machine.execJumpEq t s
  | .jumpGt t => Sys2Proof.Machine.execJumpGt t s
  | .jumpLt t => Sys2Proof.Machine.execJumpLt t s
  | .swapAb => Sys2Proof.Machine.execSwapAb s
  | .swapAc => Sys2Proof.Machine.execSwapAc s
  | .incA => Sys2Proof.Machine.execIncA s
  | .cmpAb => Sys2Proof.Machine.execCmpAb s
  | .reserved13 opd => Sys2Proof.Machine.execReserved13 opd s
  | .reserved14 opd => Sys2Proof.Machine.execReserved14 opd s
  | .halt => Sys2Proof.Machine.execHalt s

end Sys2Proof.Machine
end

