-- ==== Sys2Proof/Machine/Cycle.lean ====
section
/-! DEFINITION. Cycle: fetch, decode and dispatch (spec/40_cycle.md R80 to R88). -/

namespace Sys2Proof.Machine

/-- R84 to R86: decode the fetched word; a cell of a named opcode with a wrong operand is the fatal
stop `InvalidOperand` (R85, R165), and an instruction is executed. -/
def runWord (w : CellWord) (s : State) : Host.Outcome State Fault Refusal :=
  match decode w with
  | .ok i => exec i s
  | .error e => .next (raiseFatal .invalidOperand e.cell s)

/-- R82, R87: one Cycle.  A fetch outside the image is the model's own fault (log entry 7). -/
def runCycle (s : State) : Host.Outcome State Fault Refusal :=
  match s.mem.read s.pc with
  | some w => runWord w s
  | none => .fault .fetchOutsideImage

/-- R80, R143: a Cycle is enabled exactly when `halted = false`; a halted block holds all its state
(log entry 5). -/
def cycleOrHold (s : State) : Host.Outcome State Fault Refusal :=
  if s.halted then .next s else runCycle s

/-- The state with one cell of the image placed at the pc, and running, so that the next step fetches
that cell (log entry 8). -/
def State.placeAtPc (w : CellWord) (s : State) : State :=
  { s with mem := s.mem.place s.pc w, halted := false }

end Sys2Proof.Machine
end

