-- ==== Sys2Proof/Machine/Step.lean ====
section
/-! DEFINITION. Step: one step of the block, the Cycle of spec/40_cycle.md R87. -/

namespace Sys2Proof.Machine

/-- R80, R87. -/
def step (s : State) : Host.Outcome State Fault Refusal := cycleOrHold s

/-- The host's entry: the image with the cell of a table row at the address the next step fetches
from.  A cell has 22 bits (log entries 8 and 12). -/
def State.withFetchWord (s : State) (nbits w : Nat) : State :=
  s.placeAtPc (BitVec.ofNat 22 (w % 2 ^ nbits))

end Sys2Proof.Machine
end

