-- ==== Sys2Proof/Machine/Loader.lean ====
section
/-! DEFINITION. Loader: what the host owes the block before reset is released: the program text
(spec/30_encoding.md R72 to R78), the image with its appended HALT (spec/70_reset_and_hazards.md R184,
R186) and the start of a run (spec/50_interfaces.md R151).  The text is outside the block (R4). -/

namespace Sys2Proof.Machine

/-- R172, R76: why a text is not loaded.  Each aborts the load before any Cycle. -/
inductive ParseError where
  /-- R73: the first token of a line is no mnemonic of R64. -/
  | unknownMnemonic (token : List Char)
  /-- R75: a third token on a line. -/
  | malformedLine (line : List Char)
  /-- R74: an operand that is neither an integer nor `None`. -/
  | badOperand (token : List Char)
  /-- R75: an integer the operand field cannot hold. -/
  | operandOutOfRange (v : Int)
deriving DecidableEq, Repr

/-- R64, R73, R76: the one table of mnemonics and opcode indices; slots 13 and 14 have no name. -/
def mnemonicTable : List (String × OpIndex) :=
  [("NO_OP", 0#4), ("LOAD_AI", 1#4), ("LOAD_BI", 2#4), ("ADD_AB", 3#4), ("SUB_AB", 4#4),
   ("JUMP", 5#4), ("JUMP_EQ", 6#4), ("JUMP_GT", 7#4), ("JUMP_LT", 8#4), ("SWAP_AB", 9#4),
   ("SWAP_AC", 10#4), ("INC_A", 11#4), ("CMP_AB", 12#4), ("HALT", 15#4)]

/-- R73: the opcode index of a mnemonic, spelled exactly. -/
def opcodeOf (token : List Char) : Option OpIndex :=
  (mnemonicTable.find? (fun row => row.1.toList == token)).map Prod.snd

/-- R147: the opcode name of an index; 13 and 14 have none. -/
def mnemonicOf (opc : OpIndex) : Option String :=
  (mnemonicTable.find? (fun row => row.2 == opc)).map Prod.fst

/-- The pieces of a text between the characters that satisfy `sep`. -/
def splitAtChars (sep : Char → Bool) : List Char → List (List Char)
  | [] => [[]]
  | ch :: rest =>
    if sep ch then [] :: splitAtChars sep rest
    else
      match splitAtChars sep rest with
      | [] => [[ch]]
      | piece :: pieces => (ch :: piece) :: pieces

/-- R75: tokens are separated by spaces or tabs.  DESIGN CHOICE, safe (log entry 14): R75 does not say
which characters are the white space that it ignores at the ends of a line and on a blank line; the model
takes the same two, and every other character (carriage return, form feed, vertical tab, ...) is ordinary. -/
def isBlankChar (ch : Char) : Bool := ch == ' ' || ch == '\t'

/-- R75: the tokens of a line. -/
def tokensOf (line : List Char) : List (List Char) :=
  (splitAtChars isBlankChar line).filter (fun token => !token.isEmpty)

/-- R75: one or more decimal digits, the characters `0` to `9` (log entry 14); `acc` is the value so
far. -/
def digitsFrom (acc : Nat) : List Char → Option Nat
  | [] => some acc
  | ch :: rest => if ch.isDigit then digitsFrom (10 * acc + (ch.toNat - 48)) rest else none

/-- R75: a non-empty run of decimal digits. -/
def naturalOf : List Char → Option Nat
  | [] => none
  | ch :: rest => digitsFrom 0 (ch :: rest)

/-- R75: an optional `-` and one or more decimal digits. -/
def integerOf : List Char → Option Int
  | '-' :: digits => (naturalOf digits).map (fun n => -(n : Int))
  | digits => (naturalOf digits).map (fun n => (n : Int))

/-- R74, R75: an operand token. -/
def operandToken (token : List Char) : Except ParseError (Option Int) :=
  if token = "None".toList then .ok none
  else
    match integerOf token with
    | some v => if operandEncodable v then .ok (some v) else .error (.operandOutOfRange v)
    | none => .error (.badOperand token)

/-- R72 to R75: one line; a blank line gives no cell. -/
def parseLine (line : List Char) : Except ParseError (Option Cell) :=
  match tokensOf line with
  | [] => .ok none
  | [m] =>
    match opcodeOf m with
    | some opc => .ok (some ⟨opc, none⟩)
    | none => .error (.unknownMnemonic m)
  | [m, o] =>
    match opcodeOf m with
    | some opc =>
      match operandToken o with
      | .ok opd => .ok (some ⟨opc, opd⟩)
      | .error e => .error e
    | none => .error (.unknownMnemonic m)
  | _ => .error (.malformedLine line)

/-- R72: the cells of the lines that are not blank, in order; the first error aborts. -/
def parseLines : List (List Char) → Except ParseError (List Cell)
  | [] => .ok []
  | line :: rest =>
    match parseLine line with
    | .error e => .error e
    | .ok cell =>
      match parseLines rest with
      | .error e => .error e
      | .ok cells => .ok (cell.toList ++ cells)

/-- R72, R76: `parse(text)`.  A line ends at a newline (log entry 14). -/
def parseText (text : List Char) : Except ParseError (List Cell) :=
  parseLines (splitAtChars (fun ch => ch == '\n') text)

/-- R43: several program texts, concatenated "in file order". -/
def parseFiles : List (List Char) → Except ParseError (List Cell)
  | [] => .ok []
  | text :: rest =>
    match parseText text with
    | .error e => .error e
    | .ok cells =>
      match parseFiles rest with
      | .error e => .error e
      | .ok more => .ok (cells ++ more)

/-- The words from address `p` on that differ from what an unlisted address reads as. -/
def listCells (p : Nat) : List CellWord → List (Nat × CellWord)
  | [] => []
  | w :: rest => if w = haltWord then listCells (p + 1) rest else (p, w) :: listCells (p + 1) rest

/-- R184: the image of the words `c_0 .. c_(N-1)`: `mem(i) = c_i`, `mem(N)` the appended HALT,
`SIZE = N + 1`. -/
def imageOf (words : List CellWord) : Memory :=
  { size := words.length + 1, cells := listCells 0 words }

/-- R8, R151: a program whose image would exceed `2^W` cells is not loaded (D17). -/
def loadImage (words : List CellWord) : Option Memory :=
  if words.length + 1 ≤ 2 ^ Config.W then some (imageOf words) else none

/-- R186: load the image, then reset; `r` is `REG_RESET`. -/
def bootWords (r : RegReset) (words : List CellWord) : Option State :=
  (loadImage words).map (State.resetWith r)

/-- R76, R186: parse, load, reset.  A text that does not parse is never run. -/
def bootText (r : RegReset) (files : List (List Char)) : Option State :=
  match parseFiles files with
  | .ok cells => bootWords r (cells.map encodeCell)
  | .error _ => none

end Sys2Proof.Machine
end

