-- ==== Sys2Proof/Machine/Trace.lean ====
section
/-! DEFINITION. Trace: the events of a Cycle (spec/50_interfaces.md R146 to R149), as a function of the
state before it (log entry 11). -/

namespace Sys2Proof.Machine

/-- R147 to R149. -/
inductive Event where
  /-- R147: `Fetch(addr, opc, opd)`, one per Cycle, first of the Cycle. -/
  | fetch (addr : Nat) (opc : OpIndex) (opd : Option Int)
  /-- R148: `RegWrite(r, v)`. -/
  | regWrite (r : Reg) (v : Int)
  /-- R148: `JumpTaken(t)`. -/
  | jumpTaken (t : Nat)
  /-- R148: `Halt`. -/
  | halt
  /-- R149: `Overflow(kind)`, the kind given by its opcode index (DESIGN CHOICE, safe, log entry
  11). -/
  | overflow (kind : OpIndex)
  /-- R149: `Error(cause, addr, opc, opd)`. -/
  | error (cause : ErrCause) (addr : Nat) (opc : OpIndex) (opd : Option Int)
deriving DecidableEq, Repr

/-- R148, R149: the events of an instruction that uses the ALU; CMP_AB has no destination. -/
def aluEvents (kind : OpIndex) (dest : Option Reg) : AluResult → List Event
  | .ok v =>
    match dest with
    | some r => [.regWrite r v]
    | none => []
  | .overflow => [.overflow kind]

/-- R148, R149: the events of a jump. -/
def jumpEvents (cond : Bool) (opc : OpIndex) (t : Int) (s : State) : List Event :=
  if cond then
    if validTarget s.mem.size t then [.jumpTaken t.toNat]
    else [.error .invalidAddress s.pc opc (some t)]
  else []

/-- R148, R149: the events of the execute part, from the state before the fetch. -/
def execEvents (i : Instr) (s : State) : List Event :=
  match i with
  | .noOp => []
  | .loadAi v => [.regWrite .A v]
  | .loadBi v => [.regWrite .B v]
  | .addAb => aluEvents 3#4 (some .C) (aluAdd s.a s.b)
  | .subAb => aluEvents 4#4 (some .C) (aluSubtract s.a s.b)
  | .jump t => jumpEvents true 5#4 t s
  | .jumpEq t => jumpEvents (condEq s) 6#4 t s
  | .jumpGt t => jumpEvents (condGt s) 7#4 t s
  | .jumpLt t => jumpEvents (condLt s) 8#4 t s
  | .swapAb => [.regWrite .A s.b, .regWrite .B s.a]
  | .swapAc => [.regWrite .A s.c, .regWrite .C s.a]
  | .incA => aluEvents 11#4 (some .A) (aluIncrement s.a)
  | .cmpAb => aluEvents 12#4 none (aluSubtract s.a s.b)
  | .reserved13 opd => [.error .invalidOpcode s.pc 13#4 opd]
  | .reserved14 opd => [.error .invalidOpcode s.pc 14#4 opd]
  | .halt => [.halt]

/-- R147 to R149: the events of a Cycle that fetched the word `w`. -/
def wordEvents (w : CellWord) (s : State) : List Event :=
  .fetch s.pc (decodeCell w).opc (decodeCell w).opd ::
    match decode w with
    | .ok i => execEvents i s
    | .error e => [.error .invalidOperand s.pc e.cell.opc e.cell.opd]

/-- R146: the events of the next step; none when no Cycle happens (R80). -/
def cycleEvents (s : State) : List Event :=
  if s.halted then []
  else
    match s.mem.read s.pc with
    | some w => wordEvents w s
    | none => []

/-- R146: the trace of the next `n` steps, in Cycle order. -/
def traceOf : Nat → State → List Event
  | 0, _ => []
  | n + 1, s =>
    match step s with
    | .next s' => cycleEvents s ++ traceOf n s'
    | .fault _ => cycleEvents s
    | .refused _ => cycleEvents s

/-- What an event says of the state (R147 to R149, R168): Fetch that the pc has advanced from `addr`,
RegWrite that the register holds the value, JumpTaken that the pc is the target, Halt and Error that
the block has stopped, Error also what `ERR` holds.  Overflow says nothing of it (R33), and no event
tells a flag. -/
def replayEvent (s : State) : Event → State
  | .fetch addr _ _ => { s with pc := advance s.mem.size addr }
  | .regWrite r v => s.setReg r v
  | .jumpTaken t => { s with pc := t }
  | .halt => { s with halted := true }
  | .overflow _ => s
  | .error cause addr opc opd => { s with halted := true, err := ⟨cause, addr, opc, opd⟩ }

/-- The events of a trace, applied in order. -/
def replay (es : List Event) (s : State) : State := es.foldl replayEvent s

/-- The event is a Fetch. -/
def Event.isFetch : Event → Bool
  | .fetch _ _ _ => true
  | _ => false

end Sys2Proof.Machine
end

