-- ==== Sys2Proof/Machine/Ports.lean ====
section
/-! DEFINITION. Ports: the hardware rendering of spec/50_interfaces.md R141 to R145 and R150, over the
architectural step. -/

namespace Sys2Proof.Machine

/-- R9: `AW = max(1, ceil(log2(SIZE)))`. -/
def addrWidth (size : Nat) : Nat := Nat.log2 (size - 1) + 1

/-- The width of the address ports in a state. -/
abbrev State.aw (s : State) : Nat := addrWidth s.mem.size

/-- R35, R162: the cause codes. -/
def ErrCause.code : ErrCause → BitVec 2
  | .none => 0#2
  | .invalidOpcode => 1#2
  | .invalidAddress => 2#2
  | .invalidOperand => 3#2

/-- R141: the block drives `imem_addr = pc`. -/
def imemAddr (s : State) : BitVec s.aw := BitVec.ofNat s.aw s.pc

/-- R144: the status outputs. -/
structure StatusPorts (aw : Nat) where
  halted : Bool
  errCause : BitVec 2
  errAddr : BitVec aw
  errOpc : OpIndex
  errP : Bool
  errImm : Imm
deriving DecidableEq, Repr

/-- R144: `err_p` and `err_imm` are `ERR.opd` in the form of R61, `err_imm = 0` when `err_p = 0`. -/
def statusPorts (s : State) : StatusPorts s.aw :=
  { halted := s.halted
    errCause := s.err.cause.code
    errAddr := BitVec.ofNat s.aw s.err.addr
    errOpc := s.err.opc
    errP := (encodeOperand s.err.opd).1
    errImm := (encodeOperand s.err.opd).2 }

/-- R145: the state observation outputs; registers in 17 bits of two's complement (R21). -/
structure DebugPorts (aw : Nat) where
  dbgA : BitVec 17
  dbgB : BitVec 17
  dbgC : BitVec 17
  dbgPc : BitVec aw
  dbgZero : Bool
  dbgNegative : Bool
deriving DecidableEq, Repr

/-- R145. -/
def debugPorts (s : State) : DebugPorts s.aw :=
  { dbgA := BitVec.ofInt 17 s.a
    dbgB := BitVec.ofInt 17 s.b
    dbgC := BitVec.ofInt 17 s.c
    dbgPc := BitVec.ofNat s.aw s.pc
    dbgZero := s.zero
    dbgNegative := s.negative }

/-- R150: the trace outputs of an edge on which a Cycle happens (`tr_valid = 1`).  `trImm` is present
exactly when `tr_p = 1`: the spec states no value for it otherwise (log entry 16). -/
structure TracePorts (aw : Nat) where
  trAddr : BitVec aw
  trOpc : OpIndex
  trP : Bool
  trImm : Option Imm
  trWrA : Bool
  trWrB : Bool
  trWrC : Bool
  trJump : Bool
  trHalt : Bool
  trOvf : Bool
  trErr : Bool
deriving DecidableEq, Repr

/-- The event is a RegWrite of the register. -/
def Event.isWriteOf (r : Reg) : Event → Bool
  | .regWrite q _ => decide (q = r)
  | _ => false

/-- The event is a JumpTaken. -/
def Event.isJump : Event → Bool
  | .jumpTaken _ => true
  | _ => false

/-- The event is a Halt. -/
def Event.isHalt : Event → Bool
  | .halt => true
  | _ => false

/-- The event is an Overflow. -/
def Event.isOverflow : Event → Bool
  | .overflow _ => true
  | _ => false

/-- The event is an Error. -/
def Event.isError : Event → Bool
  | .error _ _ _ _ => true
  | _ => false

/-- R150: the rendering of the execute events beside a Fetch event. -/
def renderEvents (aw addr : Nat) (opc : OpIndex) (opd : Option Int) (es : List Event) :
    TracePorts aw :=
  { trAddr := BitVec.ofNat aw addr
    trOpc := opc
    trP := opd.isSome
    trImm := opd.map (BitVec.ofInt 17)
    trWrA := es.any (Event.isWriteOf .A)
    trWrB := es.any (Event.isWriteOf .B)
    trWrC := es.any (Event.isWriteOf .C)
    trJump := es.any Event.isJump
    trHalt := es.any Event.isHalt
    trOvf := es.any Event.isOverflow
    trErr := es.any Event.isError }

/-- R150: the trace outputs at an edge; `none` is `tr_valid = 0`, no Cycle at this edge. -/
def tracePorts (rst stepEn : Bool) (s : State) : Option (TracePorts s.aw) :=
  if rst || !stepEn then none
  else
    match cycleEvents s with
    | .fetch addr opc opd :: es => some (renderEvents s.aw addr opc opd es)
    | _ => none

/-- R142, R143: one rising edge of `clk`; `r` is `REG_RESET`.  Reset wins over everything; with
`step_en = 0` nothing changes; with `step_en = 1` a step is taken, which holds a halted block. -/
def clockEdge (r : RegReset) (rst stepEn : Bool) (s : State) : Host.Outcome State Fault Refusal :=
  if rst then .next (s.restartWith r) else if stepEn then step s else .next s

/-- R143: the edges of a pacing pattern, no reset among them, stopping at the first fault. -/
def pacedRun (r : RegReset) : List Bool → State → Host.Outcome State Fault Refusal
  | [], s => .next s
  | stepEn :: rest, s =>
    match clockEdge r false stepEn s with
    | .next s' => pacedRun r rest s'
    | .fault f => .fault f
    | .refused f => .refused f

end Sys2Proof.Machine
end

