-- ==== Sys2Proof/Machine/WholeStep.lean ====
section
/-! DEFINITION. WholeStep: the one-function transcription of the Cycle that spec/40_cycle.md R87 gives,
written out with the spec's numerals and none of the model's operations, for a statement to compare
the machine with. -/

namespace Sys2Proof.Machine

/-- R87, `fatal(s1, cause, k, opc, opd)`. -/
def wholeFatal (s1 : State) (cause : ErrCause) (k : Nat) (opc : OpIndex) (opd : Option Int) : State :=
  { s1 with halted := true, err := ⟨cause, k, opc, opd⟩ }

/-- R87, `jump(s1, cond, v)`, for the instruction `opc` at `k`. -/
def wholeJump (s1 : State) (cond : Bool) (k : Nat) (opc : OpIndex) (v : Int) : State :=
  if cond = false then s1
  else if 0 ≤ v ∧ v < (s1.mem.size : Int) then { s1 with pc := v.toNat }
  else wholeFatal s1 .invalidAddress k opc (some v)

/-- R87, `step(s)` for the cell `(opc, opd) = mem(s.pc)`. -/
def wholeStep (s : State) (opc : OpIndex) (opd : Option Int) : State :=
  let k := s.pc
  let s1 := { s with pc := if k = s.mem.size - 1 then 0 else k + 1 }
  match opc.toNat, opd with
  | 13, opd => wholeFatal s1 .invalidOpcode k opc opd
  | 14, opd => wholeFatal s1 .invalidOpcode k opc opd
  | 0, none => s1
  | 1, some v =>
    if -65535 ≤ v ∧ v ≤ 65535 then { s1 with a := v }
    else wholeFatal s1 .invalidOperand k opc (some v)
  | 2, some v =>
    if -65535 ≤ v ∧ v ≤ 65535 then { s1 with b := v }
    else wholeFatal s1 .invalidOperand k opc (some v)
  | 3, none =>
    if -65535 ≤ s.a + s.b ∧ s.a + s.b ≤ 65535 then
      { s1 with c := s.a + s.b, zero := s.a + s.b == 0 }
    else s1
  | 4, none =>
    if -65535 ≤ s.a - s.b ∧ s.a - s.b ≤ 65535 then
      { s1 with c := s.a - s.b, zero := s.a - s.b == 0, negative := decide (s.a - s.b < 0) }
    else s1
  | 5, some v => wholeJump s1 true k opc v
  | 6, some v => wholeJump s1 s.zero k opc v
  | 7, some v => wholeJump s1 (!s.zero && !s.negative) k opc v
  | 8, some v => wholeJump s1 (!s.zero && s.negative) k opc v
  | 9, none => { s1 with a := s.b, b := s.a }
  | 10, none => { s1 with a := s.c, c := s.a }
  | 11, none => if -65535 ≤ s.a + 1 ∧ s.a + 1 ≤ 65535 then { s1 with a := s.a + 1 } else s1
  | 12, none =>
    if -65535 ≤ s.a - s.b ∧ s.a - s.b ≤ 65535 then
      { s1 with zero := s.a - s.b == 0, negative := decide (s.a - s.b < 0) }
    else s1
  | 15, none => { s1 with halted := true }
  | _, opd => wholeFatal s1 .invalidOperand k opc opd

end Sys2Proof.Machine
end

