-- ==== Sys2Proof/Safety.lean ====
section
/-! DEFINITION. Safety: the invariant of spec/10_state.md R37, the ends of a run
(spec/60_exceptions.md R170), and the spec's own words that the statements use: the state after the
fetch, the state after a fatal stop, the cell a Cycle fetches. -/

namespace Sys2Proof.Machine

/-- R35, R162: what `ERR` can hold: nothing (its reset value), or a cause with the address, opcode and
operand of a cell. -/
def ErrLatch.wf (size : Nat) (e : ErrLatch) : Prop :=
  (e.cause = .none → e = ErrLatch.reset) ∧ e.addr < size ∧ optEncodable e.opd = true

/-- R37: the invariant of every reachable state, with the bounds of SIZE (R8) and the canonical form of
the image. -/
structure StateInv (s : State) : Prop where
  a_fits : fitsW s.a = true
  b_fits : fitsW s.b = true
  c_fits : fitsW s.c = true
  pc_in_image : s.pc < s.mem.size
  size_bound : s.mem.size ≤ 2 ^ Config.W
  err_halted : s.err.cause ≠ .none → s.halted = true
  err_wf : s.err.wf s.mem.size
  mem_wf : s.mem.wf

/-- R170: the run has ended by a HALT. -/
abbrev NormalStop (s : State) : Prop := s.halted = true ∧ s.err.cause = .none

/-- R170: the run has ended by a fatal error. -/
abbrev ErrorStop (s : State) : Prop := s.halted = true ∧ s.err.cause ≠ .none

/-- R80, R82: a Cycle is enabled and fetches the word `w`. -/
abbrev Fetches (s : State) (w : CellWord) : Prop := s.halted = false ∧ s.mem.read s.pc = some w

/-- R87, `s1`: the state after the fetch step, `pc <- advance(k)` with R26's formula. -/
def afterFetch (s : State) : State :=
  { s with pc := if s.pc = s.mem.size - 1 then 0 else s.pc + 1 }

/-- R168: the state after `raise cause(k, opc, opd)` in the Cycle of the instruction at `k = s.pc`. -/
def stopped (cause : ErrCause) (opc : OpIndex) (opd : Option Int) (s : State) : State :=
  { afterFetch s with halted := true, err := ⟨cause, s.pc, opc, opd⟩ }

/-- R132 to R135: the target of the jump, if the instruction is a jump that is taken. -/
def takenTarget (i : Instr) (s : State) : Option Int :=
  match i with
  | .jump t => some t
  | .jumpEq t => if s.zero then some t else none
  | .jumpGt t => if !s.zero && !s.negative then some t else none
  | .jumpLt t => if !s.zero && s.negative then some t else none
  | .noOp => none
  | .loadAi _ => none
  | .loadBi _ => none
  | .addAb => none
  | .subAb => none
  | .swapAb => none
  | .swapAc => none
  | .incA => none
  | .cmpAb => none
  | .reserved13 _ => none
  | .reserved14 _ => none
  | .halt => none

/-- The instruction is one of the four jumps. -/
def isJumpInstr : Instr → Bool
  | .jump _ => true
  | .jumpEq _ => true
  | .jumpGt _ => true
  | .jumpLt _ => true
  | .noOp => false
  | .loadAi _ => false
  | .loadBi _ => false
  | .addAb => false
  | .subAb => false
  | .swapAb => false
  | .swapAc => false
  | .incA => false
  | .cmpAb => false
  | .reserved13 _ => false
  | .reserved14 _ => false
  | .halt => false

/-- R64: the 14 named rows of its table, each with the instruction it names; where an operand is required,
the operand 0 stands for every one. -/
def namedRows : List (String × OpIndex × Instr) :=
  [("NO_OP", 0#4, .noOp), ("LOAD_AI", 1#4, .loadAi 0), ("LOAD_BI", 2#4, .loadBi 0),
   ("ADD_AB", 3#4, .addAb), ("SUB_AB", 4#4, .subAb), ("JUMP", 5#4, .jump 0),
   ("JUMP_EQ", 6#4, .jumpEq 0), ("JUMP_GT", 7#4, .jumpGt 0), ("JUMP_LT", 8#4, .jumpLt 0),
   ("SWAP_AB", 9#4, .swapAb), ("SWAP_AC", 10#4, .swapAc), ("INC_A", 11#4, .incA),
   ("CMP_AB", 12#4, .cmpAb), ("HALT", 15#4, .halt)]

/-- R75 (the model's choice of the characters: log entry 14): nothing but spaces and tabs. -/
def Blanks (cs : List Char) : Prop := ∀ ch ∈ cs, ch = ' ' ∨ ch = '\t'

/-- R75: a token, one or more characters that are neither space nor tab. -/
def IsToken (cs : List Char) : Prop := cs ≠ [] ∧ ∀ ch ∈ cs, ch ≠ ' ' ∧ ch ≠ '\t'

/-- R75: one or more decimal digits. -/
def IsDigits (cs : List Char) : Prop := cs ≠ [] ∧ ∀ ch ∈ cs, '0' ≤ ch ∧ ch ≤ '9'

/-- R75: the natural number that decimal digits denote. -/
def decimalValue (cs : List Char) : Nat :=
  Nat.ofDigits 10 ((cs.map fun ch => ch.toNat - '0'.toNat).reverse)

/-- The "Exceptions" line of an instruction without operand: a cell of the opcode without operand runs
`i`, and one with an operand is the fatal stop `InvalidOperand` (R67, R85). -/
def TakesNoOperand (opc : OpIndex) (i : Instr) : Prop :=
  ∀ s w, Fetches s w → opcField w = opc →
    (operandOf w = none → step s = exec i s) ∧
    (∀ v, operandOf w = some v → step s = .next (stopped .invalidOperand opc (some v) s))

/-- The "Exceptions" line of a load: no operand, or the operand -65536, is the fatal stop
`InvalidOperand` (R67, R68, R85). -/
def TakesValue (opc : OpIndex) (make : Int → Instr) : Prop :=
  ∀ s w, Fetches s w → opcField w = opc →
    (operandOf w = none → step s = .next (stopped .invalidOperand opc none s)) ∧
    (operandOf w = some (-65536) →
      step s = .next (stopped .invalidOperand opc (some (-65536)) s)) ∧
    (∀ v, operandOf w = some v → v ≠ -65536 → step s = exec (make v) s)

/-- The `InvalidOperand` part of a jump's "Exceptions" line: no operand is the fatal stop (R67, R85), and
every operand is a legal encoding (R69). -/
def TakesTarget (opc : OpIndex) (make : Int → Instr) : Prop :=
  ∀ s w, Fetches s w → opcField w = opc →
    (operandOf w = none → step s = .next (stopped .invalidOperand opc none s)) ∧
    (∀ t, operandOf w = some t → step s = exec (make t) s)

end Sys2Proof.Machine
end

