-- ==== Sys2Proof/Certificates/Slice0/Obligations.lean ====
section
/-! DEFINITION. Obligations: what the provers are asked to prove.  `afterFetch`, `stopped`, `Fetches`,
`takenTarget`, `TakesNoOperand`, `TakesValue`, `TakesTarget`, `StateInv`, `namedRows`, `Blanks`, `IsToken`,
`IsDigits` and `decimalValue` are in Sys2Proof/Safety.lean. -/

open Sys2Proof Sys2Proof.Machine

/-! ### Encoding -/

/-- R61, R62 (the spec's own layout, D2, D3): the opcode is bits 21:18, the operand is present iff bit
17 is 1, and is then bits 16:0 read in two's complement. -/
def Obligations.CellFieldsAreTheSpecsBits : Prop :=
  ∀ w : CellWord,
    (decodeCell w).opc.toNat = w.toNat / 2 ^ 18 ∧
    (decodeCell w).opd =
      if w.toNat / 2 ^ 17 % 2 = 1 then
        some (if w.toNat % 2 ^ 17 < 2 ^ 16 then ((w.toNat % 2 ^ 17 : Nat) : Int)
          else ((w.toNat % 2 ^ 17 : Nat) : Int) - 2 ^ 17)
      else none

/-- R70 (derived there): every cell whose operand, if present, is in -65536..65535 is the decoding of
its word. -/
def Obligations.EncodedCellDecodes : Prop :=
  ∀ c : Cell, (∀ v, c.opd = some v → -65536 ≤ v ∧ v ≤ 65535) → decodeCell (encodeCell c) = c

/-- R64, R70: decoding the word of a well-formed instruction gives the instruction back. -/
def Obligations.EncodedInstructionDecodes : Prop :=
  ∀ i : Instr, i.wellFormed = true → decode (encode i) = .ok i

/-- R63, R70: a word is canonical when it has an operand or its `imm` bits are zero, and encoding what a
canonical word decodes to gives the word back. -/
def Obligations.CanonicalWordReencodes : Prop :=
  ∀ (w : CellWord) (i : Instr), decode w = .ok i →
    (presentBit w = true ∨ immField w = 0#17) → encode i = w

/-- R68, R69: what the decoder accepts is well formed. -/
def Obligations.DecodedInstructionIsWellFormed : Prop :=
  ∀ (w : CellWord) (i : Instr), decode w = .ok i → i.wellFormed = true

/-- R69 (with the operand forms the spec decides in D10 to D12): a word is rejected exactly when its
opcode needs an operand and has none, forbids one and has one, or is a load of -65536. -/
def Obligations.WordIsRejectedExactly : Prop :=
  ∀ w : CellWord, (∃ e, decode w = .error e) ↔
    (w.toNat / 2 ^ 18 ∈ [1, 2, 5, 6, 7, 8] ∧ w.toNat / 2 ^ 17 % 2 = 0) ∨
    (w.toNat / 2 ^ 18 ∈ [0, 3, 4, 9, 10, 11, 12, 15] ∧ w.toNat / 2 ^ 17 % 2 = 1) ∨
    (w.toNat / 2 ^ 18 ∈ [1, 2] ∧ w.toNat / 2 ^ 17 % 2 = 1 ∧ w.toNat % 2 ^ 17 = 0x10000)

/-- R64, R70, 95 section 2.5: words written out bit by bit, `oooo P iiiiiiiiiiiiiiiii`. -/
def Obligations.WordsOfTheSpecDecode : Prop :=
  decode 0b0000000000000000000000#22 = .ok .noOp ∧
  decode 0b0001100000000000000101#22 = .ok (.loadAi 5) ∧
  decode 0b0010110000000000000001#22 = .ok (.loadBi (-65535)) ∧
  decode 0b0011000000000000000000#22 = .ok .addAb ∧
  decode 0b1000100000000000000010#22 = .ok (.jumpLt 2) ∧
  decode 0b1010000000000000000000#22 = .ok .swapAc ∧
  decode 0b1101000000000000000000#22 = .ok (.reserved13 none) ∧
  decode 0b1111000000000000000000#22 = .ok .halt

/-! ### The Cycle -/

/-- R80, R86: a running block whose fetched word decodes to an instruction does exactly what `exec` says
of that instruction at that state; nothing is added around it. -/
def Obligations.StepRunsDecodedInstruction : Prop :=
  ∀ s w i, Fetches s w → decode w = .ok i → step s = exec i s

/-- R85, R165, R168 (InvalidOperand is the spec's own cause, D10 to D12; the model decodes first and
rejects by name, log entry 10): a cell the decoder rejects is the fatal stop InvalidOperand, with the
cell's own opcode and operand. -/
def Obligations.RejectedCellIsInvalidOperand : Prop :=
  ∀ s w e, Fetches s w → decode w = .error e →
    step s = .next (stopped .invalidOperand (opcField w) (operandOf w) s)

/-- R26: the pc's advance. -/
def Obligations.AdvanceWrapsAtTheLastCell : Prop :=
  ∀ size p : Nat, p < size →
    (p = size - 1 → advance size p = 0) ∧ (p ≠ size - 1 → advance size p = p + 1) ∧
    advance size p < size ∧ advance 1 0 = 0

/-- R27, R83: after a Cycle the pc is the target if a jump to a cell of the image was taken, and
`advance(k)` after anything else: an instruction that is no taken jump, HALT, a fatal error. -/
def Obligations.PcAfterACycle : Prop :=
  ∀ s w s', Fetches s w → step s = .next s' →
    (∀ i t, decode w = .ok i → takenTarget i s = some t → 0 ≤ t → t < s.mem.size →
      s'.pc = t.toNat) ∧
    ((∀ i t, decode w = .ok i → takenTarget i s = some t → ¬(0 ≤ t ∧ t < s.mem.size)) →
      s'.pc = if s.pc = s.mem.size - 1 then 0 else s.pc + 1)

/-- R87 (derived there): the machine's step is the spec's whole-step function on the cell the pc
addresses. -/
def Obligations.StepIsTheWholeStepFunction : Prop :=
  ∀ s w, Fetches s w → step s = .next (wholeStep s (opcField w) (operandOf w))

/-! ### The instructions: encoding, effect with its frame, exceptions -/

/-- R137: NO_OP. -/
def Obligations.NoOpOnlyAdvancesThePc : Prop :=
  encode .noOp = 0x000000#22 ∧
  (∀ s, exec .noOp s = .next (afterFetch s)) ∧
  TakesNoOperand 0#4 .noOp

/-- R111: LOAD_AI.  Only A and the pc change, the flags keep their values even for `v = 0`. -/
def Obligations.LoadAiWritesA : Prop :=
  (∀ v, -65535 ≤ v → v ≤ 65535 →
    (encode (.loadAi v)).toNat = 1 * 2 ^ 18 + 2 ^ 17 + (v % 2 ^ 17).toNat) ∧
  (∀ v s, -65535 ≤ v → v ≤ 65535 → exec (.loadAi v) s = .next { afterFetch s with a := v }) ∧
  TakesValue 1#4 .loadAi

/-- R112: LOAD_BI. -/
def Obligations.LoadBiWritesB : Prop :=
  (∀ v, -65535 ≤ v → v ≤ 65535 →
    (encode (.loadBi v)).toNat = 2 * 2 ^ 18 + 2 ^ 17 + (v % 2 ^ 17).toNat) ∧
  (∀ v s, -65535 ≤ v → v ≤ 65535 → exec (.loadBi v) s = .next { afterFetch s with b := v }) ∧
  TakesValue 2#4 .loadBi

/-- R113: SWAP_AB; two in a row restore the registers. -/
def Obligations.SwapAbExchangesAAndB : Prop :=
  encode .swapAb = 0x240000#22 ∧
  (∀ s, exec .swapAb s = .next { afterFetch s with a := s.b, b := s.a }) ∧
  (∀ s s1 s2, exec .swapAb s = .next s1 → exec .swapAb s1 = .next s2 →
    s2 = { afterFetch (afterFetch s) with pc := s2.pc }) ∧
  TakesNoOperand 9#4 .swapAb

/-- R114: SWAP_AC.  (The rule's two further sentences, that B and C are exchanged by three swaps and
that nothing else reads C, are ThreeSwapsExchangeBAndC and OnlySwapAcReadsC.) -/
def Obligations.SwapAcExchangesAAndC : Prop :=
  encode .swapAc = 0x280000#22 ∧
  (∀ s, exec .swapAc s = .next { afterFetch s with a := s.c, c := s.a }) ∧
  TakesNoOperand 10#4 .swapAc

/-- R121: ADD_AB.  On Overflow nothing but the pc changes; `negative` is never written. -/
def Obligations.AddAbWritesCAndZero : Prop :=
  encode .addAb = 0x0C0000#22 ∧
  (∀ s, exec .addAb s = .next
    (if -65536 < s.a + s.b ∧ s.a + s.b < 65536 then
      { afterFetch s with c := s.a + s.b, zero := decide (s.a + s.b = 0) }
    else afterFetch s)) ∧
  TakesNoOperand 3#4 .addAb

/-- R122: SUB_AB.  On Overflow nothing but the pc changes. -/
def Obligations.SubAbWritesCAndBothFlags : Prop :=
  encode .subAb = 0x100000#22 ∧
  (∀ s, exec .subAb s = .next
    (if -65536 < s.a - s.b ∧ s.a - s.b < 65536 then
      { afterFetch s with
        c := s.a - s.b, zero := decide (s.a - s.b = 0), negative := decide (s.a - s.b < 0) }
    else afterFetch s)) ∧
  TakesNoOperand 4#4 .subAb

/-- R123: INC_A.  No flag is written; at 65535 A stays. -/
def Obligations.IncAWritesAWithoutFlags : Prop :=
  encode .incA = 0x2C0000#22 ∧
  (∀ s, exec .incA s = .next
    (if -65536 < s.a + 1 ∧ s.a + 1 < 65536 then { afterFetch s with a := s.a + 1 }
    else afterFetch s)) ∧
  TakesNoOperand 11#4 .incA

/-- R124: CMP_AB.  The flags of A - B and no register; on Overflow nothing but the pc changes.  (What
the flags then mean is CompareDecidesTheOrder.) -/
def Obligations.CmpAbWritesOnlyTheFlags : Prop :=
  encode .cmpAb = 0x300000#22 ∧
  (∀ s, exec .cmpAb s = .next
    (if -65536 < s.a - s.b ∧ s.a - s.b < 65536 then
      { afterFetch s with zero := decide (s.a - s.b = 0), negative := decide (s.a - s.b < 0) }
    else afterFetch s)) ∧
  TakesNoOperand 12#4 .cmpAb

/-- R132: JUMP.  A jump to the next cell behaves as NO_OP. -/
def Obligations.JumpSetsThePc : Prop :=
  (∀ t, -65536 ≤ t → t ≤ 65535 →
    (encode (.jump t)).toNat = 5 * 2 ^ 18 + 2 ^ 17 + (t % 2 ^ 17).toNat) ∧
  (∀ t s, 0 ≤ t → t < s.mem.size → exec (.jump t) s = .next { s with pc := t.toNat }) ∧
  (∀ t s, t < 0 ∨ t ≥ s.mem.size →
    exec (.jump t) s = .next (stopped .invalidAddress 5#4 (some t) s)) ∧
  (∀ s, s.pc + 1 < s.mem.size → exec (.jump ((s.pc : Int) + 1)) s = exec .noOp s) ∧
  TakesTarget 5#4 .jump

/-- R133: JUMP_EQ.  `negative` is ignored; not taken, the target is not looked at. -/
def Obligations.JumpEqIsTakenIffZero : Prop :=
  (∀ t, -65536 ≤ t → t ≤ 65535 →
    (encode (.jumpEq t)).toNat = 6 * 2 ^ 18 + 2 ^ 17 + (t % 2 ^ 17).toNat) ∧
  (∀ t s, s.zero = false → exec (.jumpEq t) s = .next (afterFetch s)) ∧
  (∀ t s, s.zero = true → 0 ≤ t → t < s.mem.size →
    exec (.jumpEq t) s = .next { s with pc := t.toNat }) ∧
  (∀ t s, s.zero = true → t < 0 ∨ t ≥ s.mem.size →
    exec (.jumpEq t) s = .next (stopped .invalidAddress 6#4 (some t) s)) ∧
  TakesTarget 6#4 .jumpEq

/-- R134: JUMP_GT; after a CMP_AB or SUB_AB that does not overflow it is taken iff A > B held. -/
def Obligations.JumpGtIsTakenIffNeitherFlag : Prop :=
  (∀ t, -65536 ≤ t → t ≤ 65535 →
    (encode (.jumpGt t)).toNat = 7 * 2 ^ 18 + 2 ^ 17 + (t % 2 ^ 17).toNat) ∧
  (∀ t s, s.zero = true ∨ s.negative = true → exec (.jumpGt t) s = .next (afterFetch s)) ∧
  (∀ t s, s.zero = false → s.negative = false → 0 ≤ t → t < s.mem.size →
    exec (.jumpGt t) s = .next { s with pc := t.toNat }) ∧
  (∀ t s, s.zero = false → s.negative = false → t < 0 ∨ t ≥ s.mem.size →
    exec (.jumpGt t) s = .next (stopped .invalidAddress 7#4 (some t) s)) ∧
  (∀ s s' t, -65536 < s.a - s.b → s.a - s.b < 65536 →
    exec .cmpAb s = .next s' ∨ exec .subAb s = .next s' →
    (takenTarget (.jumpGt t) s' = some t ↔ s.a > s.b)) ∧
  TakesTarget 7#4 .jumpGt

/-- R135: JUMP_LT; after a CMP_AB or SUB_AB that does not overflow it is taken iff A < B held.  (The
rule's sentence, derived there, that exactly one of the three conditions holds is in
CompareDecidesTheOrder.) -/
def Obligations.JumpLtIsTakenIffOnlyNegative : Prop :=
  (∀ t, -65536 ≤ t → t ≤ 65535 →
    (encode (.jumpLt t)).toNat = 8 * 2 ^ 18 + 2 ^ 17 + (t % 2 ^ 17).toNat) ∧
  (∀ t s, s.zero = true ∨ s.negative = false → exec (.jumpLt t) s = .next (afterFetch s)) ∧
  (∀ t s, s.zero = false → s.negative = true → 0 ≤ t → t < s.mem.size →
    exec (.jumpLt t) s = .next { s with pc := t.toNat }) ∧
  (∀ t s, s.zero = false → s.negative = true → t < 0 ∨ t ≥ s.mem.size →
    exec (.jumpLt t) s = .next (stopped .invalidAddress 8#4 (some t) s)) ∧
  (∀ s s' t, -65536 < s.a - s.b → s.a - s.b < 65536 →
    exec .cmpAb s = .next s' ∨ exec .subAb s = .next s' →
    (takenTarget (.jumpLt t) s' = some t ↔ s.a < s.b)) ∧
  TakesTarget 8#4 .jumpLt

/-- R136: HALT.  The pc keeps the advanced value, 0 after the last cell; `ERR` is unchanged.  That the
steps after it hold the state and emit nothing is the model's reading of "no further Cycle runs"
(DEDUCED, log entry 5). -/
def Obligations.HaltSetsHalted : Prop :=
  encode .halt = 0x3C0000#22 ∧
  (∀ s, exec .halt s = .next { afterFetch s with halted := true }) ∧
  (∀ n s s', exec .halt s = .next s' →
    core.run n s' = .next s' ∧ cycleEvents s' = [] ∧
    (s.pc = s.mem.size - 1 → s'.pc = 0) ∧ (s.err.cause = .none → NormalStop s')) ∧
  TakesNoOperand 15#4 .halt

/-- R66, R84, R163: slots 13 and 14, whatever their operand, are the fatal stop InvalidOpcode, and no
mnemonic names them. -/
def Obligations.ReservedSlotsAreInvalidOpcode : Prop :=
  (∀ opd s, exec (.reserved13 opd) s = .next (stopped .invalidOpcode 13#4 opd s)) ∧
  (∀ opd s, exec (.reserved14 opd) s = .next (stopped .invalidOpcode 14#4 opd s)) ∧
  (∀ s w, Fetches s w → opcField w = 13#4 ∨ opcField w = 14#4 →
    step s = .next (stopped .invalidOpcode (opcField w) (operandOf w) s)) ∧
  (∀ token, opcodeOf token ≠ some 13#4 ∧ opcodeOf token ≠ some 14#4)

/-! ### The ALU -/

/-- R107, R149, R161: an Overflow is no error: the instruction changes nothing but the pc, `halted` and
`ERR` are untouched, and the Cycle reports it, after its Fetch event and with no other event.  An Overflow
event is in a Cycle's trace exactly when one of these four instructions overflows.  That the event names
its kind by the opcode index is the model's choice (log entry 11). -/
def Obligations.OverflowChangesOnlyThePc : Prop :=
  (∀ s, ¬(-65536 < s.a + s.b ∧ s.a + s.b < 65536) →
    exec .addAb s = .next (afterFetch s)) ∧
  (∀ s, ¬(-65536 < s.a - s.b ∧ s.a - s.b < 65536) →
    exec .subAb s = .next (afterFetch s) ∧ exec .cmpAb s = .next (afterFetch s)) ∧
  (∀ s, ¬(-65536 < s.a + 1 ∧ s.a + 1 < 65536) →
    exec .incA s = .next (afterFetch s)) ∧
  (∀ s w kind, Fetches s w →
    (.overflow kind ∈ cycleEvents s ↔
      cycleEvents s = [.fetch s.pc (opcField w) (operandOf w), .overflow kind] ∧
      ((decode w = .ok .addAb ∧ kind = 3#4 ∧ ¬(-65536 < s.a + s.b ∧ s.a + s.b < 65536)) ∨
       (decode w = .ok .subAb ∧ kind = 4#4 ∧ ¬(-65536 < s.a - s.b ∧ s.a - s.b < 65536)) ∨
       (decode w = .ok .incA ∧ kind = 11#4 ∧ ¬(-65536 < s.a + 1 ∧ s.a + 1 < 65536)) ∨
       (decode w = .ok .cmpAb ∧ kind = 12#4 ∧ ¬(-65536 < s.a - s.b ∧ s.a - s.b < 65536)))))

/-- R106 (derived there): the laws of the ALU on register values. -/
def Obligations.AluLawsOnRegisterValues : Prop :=
  ∀ a b : Int, fitsW a = true → fitsW b = true →
    (aluAdd a b = .ok (a + b) ↔ -65535 ≤ a + b ∧ a + b ≤ 65535) ∧
    aluAdd a b = aluAdd b a ∧
    (aluSubtract a b = .ok (a - b) ↔ -65535 ≤ a - b ∧ a - b ≤ 65535) ∧
    aluSubtract a a = .ok 0 ∧
    (aluSubtract a b = .overflow ↔ aluSubtract b a = .overflow) ∧
    aluSubtract 0 b = .ok (-b) ∧
    (aluIncrement a = .ok (a + 1) ↔ a ≠ 65535)

/-- R124, R135 (the sentences derived there): after a CMP_AB that does not overflow, the conditions of
JUMP_EQ, JUMP_LT and JUMP_GT are A = B, A < B and A > B; and in any state exactly one of the three
jumps is taken. -/
def Obligations.CompareDecidesTheOrder : Prop :=
  (∀ s t, -65536 < s.a - s.b → s.a - s.b < 65536 → ∃ s', exec .cmpAb s = .next s' ∧
    (takenTarget (.jumpEq t) s' = some t ↔ s.a = s.b) ∧
    (takenTarget (.jumpLt t) s' = some t ↔ s.a < s.b) ∧
    (takenTarget (.jumpGt t) s' = some t ↔ s.a > s.b)) ∧
  (∀ s t, [Instr.jumpEq t, .jumpGt t, .jumpLt t].countP (fun i => (takenTarget i s).isSome) = 1)

/-- R114 (derived there): SWAP_AB, SWAP_AC, SWAP_AB exchange B and C. -/
def Obligations.ThreeSwapsExchangeBAndC : Prop :=
  ∀ s, ∃ s1 s2 s3, exec .swapAb s = .next s1 ∧ exec .swapAc s1 = .next s2 ∧
    exec .swapAb s2 = .next s3 ∧ s3 = { s with pc := s3.pc, b := s.c, c := s.b }

/-! ### Frames -/

/-- R20's table, R23, R46: each register is changed only by the instructions the table names as its
writers, and no instruction changes a cell of the image.  R23 counts six writers where the table has seven:
to follow the table is the model's reading (DEDUCED, log entry 17). -/
def Obligations.RegistersChangeOnlyByTheirWriters : Prop :=
  ∀ s w s', Fetches s w → step s = .next s' →
    (s'.a ≠ s.a → (∃ v, decode w = .ok (.loadAi v)) ∨ decode w = .ok .swapAb ∨
      decode w = .ok .swapAc ∨ decode w = .ok .incA) ∧
    (s'.b ≠ s.b → (∃ v, decode w = .ok (.loadBi v)) ∨ decode w = .ok .swapAb) ∧
    (s'.c ≠ s.c → decode w = .ok .addAb ∨ decode w = .ok .subAb ∨ decode w = .ok .swapAc) ∧
    s'.mem.size = s.mem.size ∧ ∀ k, s'.mem.read k = s.mem.read k

/-- R20's table, R30: `zero` is changed only by ADD_AB, SUB_AB and CMP_AB, and `negative` only by SUB_AB
and CMP_AB, each only when the ALU result is valid. -/
def Obligations.FlagsChangeOnlyByAddAndSubtract : Prop :=
  ∀ s w s', Fetches s w → step s = .next s' →
    (s'.zero ≠ s.zero →
      (decode w = .ok .addAb ∧ fitsW (s.a + s.b) = true) ∨
      ((decode w = .ok .subAb ∨ decode w = .ok .cmpAb) ∧ fitsW (s.a - s.b) = true)) ∧
    (s'.negative ≠ s.negative →
      (decode w = .ok .subAb ∨ decode w = .ok .cmpAb) ∧ fitsW (s.a - s.b) = true)

/-- R42, R53: no run writes the image or SIZE. -/
def Obligations.NoRunWritesTheImage : Prop :=
  ∀ n s s', core.run n s = .next s' → State.mem s' = State.mem s

/-- R22, R114: only SWAP_AC reads C.  Two states that differ in C alone differ in C alone after any
other instruction. -/
def Obligations.OnlySwapAcReadsC : Prop :=
  ∀ (i : Instr) (s : State) (v : Int), i ≠ .swapAc → ∃ t t',
    exec i s = .next t ∧ exec i { s with c := v } = .next t' ∧
    { t with c := 0 } = { t' with c := 0 } ∧ ((t.c = s.c ∧ t'.c = v) ∨ t'.c = t.c)

/-- R34, R35: no instruction reads `halted` or `ERR`: two states that differ in them alone differ after
any instruction in nothing else, and each of the two is kept or is written the same in both. -/
def Obligations.HaltedAndErrAreNeverRead : Prop :=
  ∀ (i : Instr) (s : State) (h : Bool) (e : ErrLatch), ∃ t t',
    exec i s = .next t ∧ exec i { s with halted := h, err := e } = .next t' ∧
    { t with halted := false, err := ErrLatch.reset } =
      { t' with halted := false, err := ErrLatch.reset } ∧
    ((t.halted = s.halted ∧ t'.halted = h) ∨ t'.halted = t.halted) ∧
    ((t.err = s.err ∧ t'.err = e) ∨ t'.err = t.err)

/-! ### Fatal stops and the end of a run -/

/-- R168 (D14, D15): a fatal stop is precise: it latches the cause with the address, opcode and operand
of the cell, sets `halted`, keeps the advanced pc, and changes nothing else. -/
def Obligations.FatalStopIsPrecise : Prop :=
  ∀ s w s', Fetches s w → s.err.cause = .none → step s = .next s' → s'.err.cause ≠ .none →
    s' = stopped s'.err.cause (opcField w) (operandOf w) s

/-- R162, R166, R167 (D14, D16): which cause a Cycle raises. -/
def Obligations.CauseOfAFatalStop : Prop :=
  ∀ s w s', Fetches s w → s.err.cause = .none → step s = .next s' →
    (s'.err.cause = .invalidOpcode ↔ opcField w = 13#4 ∨ opcField w = 14#4) ∧
    (s'.err.cause = .invalidOperand ↔ ∃ e, decode w = .error e) ∧
    (s'.err.cause = .invalidAddress ↔
      ∃ i t, decode w = .ok i ∧ takenTarget i s = some t ∧ ¬(0 ≤ t ∧ t < s.mem.size))

/-- R34, R170: the block stops normally in a Cycle exactly when the Cycle executes HALT, and with an
error exactly when the Cycle latches a cause. -/
def Obligations.BlockStopsOnlyByHaltOrFatalError : Prop :=
  ∀ s w s', Fetches s w → s.err.cause = .none → step s = .next s' →
    (NormalStop s' ↔ decode w = .ok .halt) ∧ (ErrorStop s' ↔ s'.err.cause ≠ .none)

/-- R169: a halted block holds all its state whatever the number of steps (so neither `halted` nor `ERR`
is ever cleared or written again), and reset clears both.  That a halted block has a step, which holds its
state, is the model's reading of R80, R143 and R151 (DEDUCED, log entry 5). -/
def Obligations.HaltedIsTerminal : Prop :=
  (∀ n (s : State), s.halted = true → core.run n s = .next s) ∧
  (∀ r (s : State), (s.restartWith r).halted = false ∧ (s.restartWith r).err = ErrLatch.reset)

/-! ### Reset, invariant, runs -/

/-- R38, R180 (D7, D8, D9, D14): every field after reset, for every REG_RESET, and a reset during a run
keeps the image and nothing else.  That State.reset takes (0, 0, 0) and no program is the model's
choice (log entries 2 and 3). -/
def Obligations.ResetLeavesTheSpecsValues : Prop :=
  (∀ r m, State.resetWith r m =
    { a := r.a, b := r.b, c := r.c, pc := 0, zero := false, negative := false, halted := false,
      err := ⟨.none, 0, 0#4, none⟩, mem := m }) ∧
  (∀ r s, State.restartWith r s = State.resetWith r s.mem) ∧
  State.reset = State.resetWith ⟨0, 0, 0⟩ ⟨1, []⟩ ∧ State.reset.mem.read 0 = some 0x3C0000#22

/-- R37: the invariant holds after reset, for every REG_RESET of the register domain and every image
within the bounds of R8. -/
def Obligations.ResetMeetsTheInvariant : Prop :=
  (∀ (r : RegReset) (m : Memory), fitsW r.a = true → fitsW r.b = true → fitsW r.c = true → m.wf →
    1 ≤ m.size → m.size ≤ 2 ^ 16 → StateInv (State.resetWith r m)) ∧
  StateInv State.reset

/-- R37: every step keeps the invariant. -/
def Obligations.StepKeepsTheInvariant : Prop :=
  ∀ s s', StateInv s → step s = .next s' → StateInv s'

/-- R45, R88: from a state that meets the invariant no number of steps faults or is refused. -/
def Obligations.RunNeverFaults : Prop :=
  ∀ n s, StateInv s → ∃ s', core.run n s = .next s' ∧ StateInv s'

/-- R184 (D29), R43, R8: the image of N words has SIZE N + 1, reads as the words and then the appended
HALT, and has no cell beyond it. -/
def Obligations.LoadedImageReadsBack : Prop :=
  ∀ (words : List CellWord) (k : Nat),
    (imageOf words).size = words.length + 1 ∧
    (imageOf words).read k =
      if k < words.length then words[k]?
      else if k = words.length then some 0x3C0000#22 else none

/-- R89, U11: a cell that jumps to itself holds the block there for ever. -/
def Obligations.JumpToSelfNeverHalts : Prop :=
  ∀ n s w, Fetches s w → decode w = .ok (.jump s.pc) → core.run n s = .next s

/-- R89 (derived there), R184: with the appended HALT in place, a run that meets no jump from its pc on
halts within as many steps as there are cells left. -/
def Obligations.StraightLineRunHalts : Prop :=
  ∀ s : State, StateInv s → s.halted = false →
    s.mem.read (s.mem.size - 1) = some (encode .halt) →
    (∀ k w i, s.pc ≤ k → s.mem.read k = some w → decode w = .ok i → isJumpInstr i = false) →
    ∃ n s', n ≤ s.mem.size - s.pc ∧ core.run n s = .next s' ∧ State.halted s' = true

/-- R89, R184, R170 (derived there): where every cell from the pc to the last but one is an instruction
that is no jump, no HALT and no reserved slot, and the last is the appended HALT, the run executes each
of them once, in order, and ends normally at the appended HALT, with pc 0. -/
def Obligations.StraightLineRunReachesTheAppendedHalt : Prop :=
  ∀ s : State, StateInv s → s.halted = false →
    s.mem.read (s.mem.size - 1) = some (encode .halt) →
    (∀ k w, s.pc ≤ k → k < s.mem.size - 1 → s.mem.read k = some w →
      ∃ i, decode w = .ok i ∧ isJumpInstr i = false ∧ i ≠ .halt ∧
        opcField w ≠ 13#4 ∧ opcField w ≠ 14#4) →
    (∀ n, n < s.mem.size - s.pc →
      ∃ t, core.run n s = .next t ∧ State.pc t = s.pc + n ∧ State.halted t = false) ∧
    ∃ s', core.run (s.mem.size - s.pc) s = .next s' ∧ NormalStop s' ∧ State.pc s' = 0

/-! ### Interfaces -/

/-- R142, R143 (D18): what one clock edge does. -/
def Obligations.ClockEdgeRules : Prop :=
  (∀ r stepEn s, clockEdge r true stepEn s = .next (State.resetWith r s.mem)) ∧
  (∀ r s, clockEdge r false false s = .next s) ∧
  (∀ r stepEn s, s.halted = true → clockEdge r false stepEn s = .next s) ∧
  (∀ r s w, Fetches s w →
    clockEdge r false true s = .next (wholeStep s (opcField w) (operandOf w)))

/-- R143, R151 (D18): the state after a pacing pattern is the state after as many steps as the pattern
has enabled edges, whatever the pattern (the step of a halted block holds its state, log entry 5). -/
def Obligations.PacingNeverChangesTheResult : Prop :=
  ∀ r pattern s, pacedRun r pattern s = core.run (pattern.count true) s

/-- R147: one Fetch event per Cycle, first of the Cycle, with the cell at the pc, emitted also when the
Cycle raises a fatal error; the opcode names are the mnemonics of R64, and 13 and 14 have none. -/
def Obligations.FetchEventComesFirst : Prop :=
  (∀ s w, Fetches s w → ∃ es, cycleEvents s = .fetch s.pc (opcField w) (operandOf w) :: es ∧
    ∀ e ∈ es, e.isFetch = false) ∧
  (∀ opc, mnemonicOf opc = none ↔ opc = 13#4 ∨ opc = 14#4) ∧
  (∀ opc name, mnemonicOf opc = some name ↔ ∃ i, (name, opc, i) ∈ namedRows)

/-- R148: the execute events.  The first clause says that a Cycle's trace is its Fetch event and then all
of these; the others say what they are. -/
def Obligations.ExecuteEventsOfTheInstructions : Prop :=
  (∀ s w i, Fetches s w → decode w = .ok i →
    cycleEvents s = .fetch s.pc (opcField w) (operandOf w) :: execEvents i s) ∧
  (∀ v s, execEvents (.loadAi v) s = [.regWrite .A v] ∧
    execEvents (.loadBi v) s = [.regWrite .B v]) ∧
  (∀ s, -65536 < s.a + s.b → s.a + s.b < 65536 →
    execEvents .addAb s = [.regWrite .C (s.a + s.b)]) ∧
  (∀ s, -65536 < s.a - s.b → s.a - s.b < 65536 →
    execEvents .subAb s = [.regWrite .C (s.a - s.b)] ∧ execEvents .cmpAb s = []) ∧
  (∀ s, -65536 < s.a + 1 → s.a + 1 < 65536 → execEvents .incA s = [.regWrite .A (s.a + 1)]) ∧
  (∀ s, execEvents .swapAb s = [.regWrite .A s.b, .regWrite .B s.a] ∧
    execEvents .swapAc s = [.regWrite .A s.c, .regWrite .C s.a] ∧
    execEvents .halt s = [.halt] ∧ execEvents .noOp s = []) ∧
  (∀ i s t, .jumpTaken t ∈ execEvents i s ↔
    ∃ v : Int, takenTarget i s = some v ∧ 0 ≤ v ∧ v < s.mem.size ∧ t = v.toNat) ∧
  (∀ i s v, takenTarget i s = some v → 0 ≤ v → v < s.mem.size →
    execEvents i s = [.jumpTaken v.toNat]) ∧
  (∀ i s, isJumpInstr i = true → takenTarget i s = none → execEvents i s = []) ∧
  (∀ i s, .halt ∈ execEvents i s ↔ i = .halt)

/-- R149 (D19): an Error event is emitted exactly when the Cycle latches an error, with the values
latched, and is then the one event after the Fetch event. -/
def Obligations.ErrorEventTellsTheLatch : Prop :=
  ∀ s w s', Fetches s w → s.err.cause = .none → step s = .next s' →
    (∀ cause addr opc opd, .error cause addr opc opd ∈ cycleEvents s ↔
      s'.err = ⟨cause, addr, opc, opd⟩ ∧ cause ≠ .none) ∧
    (s'.err.cause ≠ .none → cycleEvents s = [.fetch s.pc (opcField w) (operandOf w),
      .error s'.err.cause s'.err.addr s'.err.opc s'.err.opd])

/-- R146 to R149: the trace of a run is that of its steps in Cycle order, and tells its final state but
for the flags, which are no events: the events of any number of steps, replayed in order, give the
registers, the pc, `halted` and `ERR`. -/
def Obligations.TraceReplaysToTheFinalState : Prop :=
  (∀ s, traceOf 1 s = cycleEvents s) ∧
  (∀ m n s t, core.run m s = .next t → traceOf (m + n) s = traceOf m s ++ traceOf n t) ∧
  (∀ n s s', core.run n s = .next s' →
    s' = { replay (traceOf n s) s with zero := State.zero s', negative := State.negative s' })

/-- R150 (D19): the trace outputs of a Cycle are its events: the Fetch event's address and cell, and one
bit for each kind of execute event; without reset, with step_en and running, they are valid.  And, derived
there: at most one of tr_jump, tr_halt, tr_ovf, tr_err is 1 in a Cycle, and when one of them is 1 no tr_wr_
is 1. -/
def Obligations.TraceOutputsRenderTheEvents : Prop :=
  (∀ rst stepEn s w, s.mem.read s.pc = some w →
    ((tracePorts rst stepEn s).isSome = true ↔
      rst = false ∧ stepEn = true ∧ s.halted = false)) ∧
  (∀ s w p, StateInv s → Fetches s w → tracePorts false true s = some p →
    p.trAddr.toNat = s.pc ∧ p.trOpc = opcField w ∧ p.trP = presentBit w ∧
    (p.trP = true → p.trImm = some (immField w)) ∧
    (p.trWrA = true ↔ ∃ v, .regWrite .A v ∈ cycleEvents s) ∧
    (p.trWrB = true ↔ ∃ v, .regWrite .B v ∈ cycleEvents s) ∧
    (p.trWrC = true ↔ ∃ v, .regWrite .C v ∈ cycleEvents s) ∧
    (p.trJump = true ↔ ∃ t, .jumpTaken t ∈ cycleEvents s) ∧
    (p.trHalt = true ↔ .halt ∈ cycleEvents s) ∧
    (p.trOvf = true ↔ ∃ kind, .overflow kind ∈ cycleEvents s) ∧
    (p.trErr = true ↔ ∃ cause addr opc opd, .error cause addr opc opd ∈ cycleEvents s)) ∧
  ∀ s p, tracePorts false true s = some p →
    [p.trJump, p.trHalt, p.trOvf, p.trErr].count true ≤ 1 ∧
    ([p.trJump, p.trHalt, p.trOvf, p.trErr].count true = 1 →
      p.trWrA = false ∧ p.trWrB = false ∧ p.trWrC = false)

/-- R141, R144, R145 (D18): in every state that meets the invariant the ports show the state whole: no
register, address or operand is truncated, `err_imm` is 0 where there is no operand, and the causes have
the codes 0 to 3 of R35. -/
def Obligations.PortsShowTheState : Prop :=
  ∀ s, StateInv s →
    (debugPorts s).dbgA.toInt = s.a ∧ (debugPorts s).dbgB.toInt = s.b ∧
    (debugPorts s).dbgC.toInt = s.c ∧ (debugPorts s).dbgPc.toNat = s.pc ∧
    (imemAddr s).toNat = s.pc ∧ (statusPorts s).errAddr.toNat = s.err.addr ∧
    (if (statusPorts s).errP then some (statusPorts s).errImm.toInt else none) = s.err.opd ∧
    ((statusPorts s).errP = false → (statusPorts s).errImm = 0#17) ∧
    (statusPorts s).halted = s.halted ∧ (statusPorts s).errOpc = s.err.opc ∧
    (debugPorts s).dbgZero = s.zero ∧ (debugPorts s).dbgNegative = s.negative ∧
    ((statusPorts s).errCause = 0#2 ↔ s.err.cause = .none) ∧
    ((statusPorts s).errCause = 1#2 ↔ s.err.cause = .invalidOpcode) ∧
    ((statusPorts s).errCause = 2#2 ↔ s.err.cause = .invalidAddress) ∧
    ((statusPorts s).errCause = 3#2 ↔ s.err.cause = .invalidOperand)

/-- R9 (D17): AW is the least width, at least 1, that holds every address. -/
def Obligations.AddressWidthIsLeast : Prop :=
  ∀ size : Nat, 1 ≤ size →
    1 ≤ addrWidth size ∧ size ≤ 2 ^ addrWidth size ∧
    ∀ k, 1 ≤ k → size ≤ 2 ^ k → addrWidth size ≤ k

/-! ### The host's text -/

/-- R64, R72 to R76 (D1, D21, D25): a token stands for an index exactly when R64's table has it as a
mnemonic of that index, which is the index of the instruction it names; a line that is a mnemonic gives its
cell without operand, a line that is a mnemonic and an operand token gives its cell with that operand, other
first tokens are unknown mnemonics, and blank lines give no cell.  Spaces and tabs separate the tokens; that
the same two characters are the white space ignored around them is the model's choice (log entry 14). -/
def Obligations.AssemblerLineGivesItsCell : Prop :=
  (∀ token opc, opcodeOf token = some opc ↔
    ∃ name i, token = name.toList ∧ (name, opc, i) ∈ namedRows) ∧
  (∀ name opc i, (name, opc, i) ∈ namedRows → i.toCell.opc = opc) ∧
  ∀ lead sep trail, Blanks lead → Blanks sep → sep ≠ [] → Blanks trail →
    parseLine lead = .ok none ∧
    (∀ token, IsToken token → (∀ row ∈ namedRows, token ≠ row.1.toList) →
      parseLine (lead ++ token ++ trail) = .error (.unknownMnemonic token)) ∧
    ∀ name opc i, (name, opc, i) ∈ namedRows →
      parseLine (lead ++ name.toList ++ trail) = .ok (some ⟨opc, none⟩) ∧
      ∀ token opd, IsToken token → operandToken token = .ok opd →
        parseLine (lead ++ name.toList ++ sep ++ token ++ trail) = .ok (some ⟨opc, opd⟩)

/-- R66, R73, R75: no text assembles to a reserved slot or to an operand the cell cannot hold, so the
block sees exactly the cells the text names. -/
def Obligations.AssembledCellsSurviveEncoding : Prop :=
  ∀ texts cells, parseFiles texts = .ok cells → ∀ c ∈ cells,
    c.opc ≠ 13#4 ∧ c.opc ≠ 14#4 ∧ decodeCell (encodeCell c) = c

/-- R74, R75 (D21): what an operand token denotes: `None` no operand, decimal digits their value and with a
`-` before them its negative, if the operand field can hold it; every other token is rejected. -/
def Obligations.OperandTokensDenoteTheirIntegers : Prop :=
  operandToken "None".toList = .ok none ∧
  (∀ digits, IsDigits digits →
    (decimalValue digits ≤ 65535 → operandToken digits = .ok (some (decimalValue digits))) ∧
    (65535 < decimalValue digits →
      operandToken digits = .error (.operandOutOfRange (decimalValue digits))) ∧
    (decimalValue digits ≤ 65536 →
      operandToken ('-' :: digits) = .ok (some (-(decimalValue digits : Int)))) ∧
    (65536 < decimalValue digits →
      operandToken ('-' :: digits) = .error (.operandOutOfRange (-(decimalValue digits : Int))))) ∧
  (∀ token, token ≠ "None".toList → ¬IsDigits token →
    (∀ digits, IsDigits digits → token ≠ '-' :: digits) →
    operandToken token = .error (.badOperand token))
end

