-- ==== Sys2Proof/Laws/Operands.lean ====
section
/-! SUPPORT. Laws/Operands: the range predicates as inequalities, the operand field as an integer, and
the results of the ALU. -/

namespace Sys2Proof

theorem fitsW_iff (v : Int) : fitsW v = true ↔ -65535 ≤ v ∧ v ≤ 65535 := by
  have h : (2 : Nat) ^ Config.W = 65536 := rfl
  rw [fitsW, decide_eq_true_eq, h]
  omega

theorem fitsW_false_iff (v : Int) : fitsW v = false ↔ v < -65535 ∨ 65535 < v := by
  rw [← Bool.not_eq_true, fitsW_iff]
  omega

theorem operandEncodable_iff (v : Int) : operandEncodable v = true ↔ -65536 ≤ v ∧ v ≤ 65535 := by
  have h : (2 : Int) ^ Config.W = 65536 := rfl
  rw [operandEncodable, Bool.and_eq_true, decide_eq_true_eq, decide_eq_true_eq, h]
  omega

theorem fitsW_encodable {v : Int} (h : fitsW v = true) : operandEncodable v = true := by
  rw [operandEncodable_iff]
  rw [fitsW_iff] at h
  omega

theorem validTarget_iff (size : Nat) (t : Int) :
    validTarget size t = true ↔ 0 ≤ t ∧ t < size := by
  simp [validTarget]

theorem validTarget_false_iff (size : Nat) (t : Int) :
    validTarget size t = false ↔ ¬(0 ≤ t ∧ t < size) := by
  rw [← validTarget_iff, Bool.not_eq_true]

/-- R62: every operand field denotes an operand value. -/
theorem toInt_encodable (m : Imm) : operandEncodable m.toInt = true := by
  rw [operandEncodable_iff]
  have h1 := @BitVec.toInt_lt 17 m
  have h2 := @BitVec.le_toInt 17 m
  norm_num at h1 h2
  omega

/-- R70: the operand field of an operand value denotes it. -/
theorem toInt_ofInt_encodable {v : Int} (h : operandEncodable v = true) :
    (BitVec.ofInt 17 v).toInt = v := by
  rw [operandEncodable_iff] at h
  rw [BitVec.toInt_ofInt, Int.bmod_def]
  norm_num
  split <;> omega

end Sys2Proof

namespace Sys2Proof.Machine

theorem aluResult_fits {x : Int} (h : -65535 ≤ x ∧ x ≤ 65535) : aluResult x = .ok x := by
  rw [aluResult, if_pos ((fitsW_iff x).mpr h)]

theorem aluResult_overflow {x : Int} (h : ¬(-65535 ≤ x ∧ x ≤ 65535)) :
    aluResult x = .overflow := by
  rw [aluResult, if_neg (by rw [fitsW_iff]; exact h)]

/-- R101: an `ok` result is the exact value, and it fits. -/
theorem aluResult_ok {x v : Int} (h : aluResult x = .ok v) : v = x ∧ fitsW x = true := by
  unfold aluResult at h
  split at h
  · next hx => exact ⟨(AluResult.ok.inj h).symm, hx⟩
  · cases h

end Sys2Proof.Machine
end

