-- ==== Sys2Proof/Laws/Decode.lean ====
section
/-! SUPPORT. Laws/Decode: the fields of an encoded cell, the sixteen slots of the decoder, and what the
decoder answers for each operand form. -/

namespace Sys2Proof

/-- The sixteen opcode indices. -/
theorem opIndex_cases (o : OpIndex) :
    o = 0#4 ∨ o = 1#4 ∨ o = 2#4 ∨ o = 3#4 ∨ o = 4#4 ∨ o = 5#4 ∨ o = 6#4 ∨ o = 7#4 ∨ o = 8#4 ∨
      o = 9#4 ∨ o = 10#4 ∨ o = 11#4 ∨ o = 12#4 ∨ o = 13#4 ∨ o = 14#4 ∨ o = 15#4 := by
  revert o
  decide

/-- R61: the fields of a word as numbers. -/
theorem opcField_toNat (w : CellWord) : (opcField w).toNat = w.toNat / 2 ^ 18 := by
  have := w.isLt
  simp only [opcField, BitVec.extractLsb'_toNat, Nat.shiftRight_eq_div_pow]
  omega

theorem immField_toNat (w : CellWord) : (immField w).toNat = w.toNat % 2 ^ 17 := by
  simp [immField, BitVec.extractLsb'_toNat]

theorem presentBit_eq (w : CellWord) : presentBit w = decide (w.toNat / 2 ^ 17 % 2 = 1) := by
  simp [presentBit, BitVec.getLsbD, Nat.testBit_eq_decide_div_mod_eq]

/-- R70: an encoded cell as a number. -/
theorem encodeCell_toNat (c : Cell) : (encodeCell c).toNat =
    c.opc.toNat * 2 ^ 18 + (encodeOperand c.opd).1.toNat * 2 ^ 17 +
      (encodeOperand c.opd).2.toNat := by
  have h1 := c.opc.isLt
  have h2 := (encodeOperand c.opd).2.isLt
  have h3 := Bool.toNat_le (encodeOperand c.opd).1
  rw [encodeCell, BitVec.toNat_ofNat, Nat.mod_eq_of_lt]
  omega

theorem opcField_encodeCell (c : Cell) : opcField (encodeCell c) = c.opc := by
  apply BitVec.eq_of_toNat_eq
  have h2 := (encodeOperand c.opd).2.isLt
  have h3 := Bool.toNat_le (encodeOperand c.opd).1
  rw [opcField_toNat, encodeCell_toNat]
  omega

theorem presentBit_encodeCell (c : Cell) : presentBit (encodeCell c) = c.opd.isSome := by
  have h2 := (encodeOperand c.opd).2.isLt
  rw [presentBit_eq, encodeCell_toNat]
  obtain ⟨opc, opd⟩ := c
  cases opd <;> simp [encodeOperand] at h2 ⊢ <;> omega

theorem immField_encodeCell (c : Cell) : immField (encodeCell c) = (encodeOperand c.opd).2 := by
  apply BitVec.eq_of_toNat_eq
  have h2 := (encodeOperand c.opd).2.isLt
  rw [immField_toNat, encodeCell_toNat]
  omega

theorem operandOf_encodeCell (c : Cell) (h : optEncodable c.opd = true) :
    operandOf (encodeCell c) = c.opd := by
  unfold operandOf
  rw [presentBit_encodeCell, immField_encodeCell]
  obtain ⟨opc, opd⟩ := c
  cases opd with
  | none => rfl
  | some v => simpa [encodeOperand] using toInt_ofInt_encodable h

/-- The operand a word carries fits the operand field. -/
theorem operandOf_encodable (w : CellWord) : optEncodable (operandOf w) = true := by
  unfold operandOf
  split
  · exact toInt_encodable _
  · rfl

@[simp] theorem decodeCell_opc (w : CellWord) : (decodeCell w).opc = opcField w := rfl
@[simp] theorem decodeCell_opd (w : CellWord) : (decodeCell w).opd = operandOf w := rfl

theorem requireOperand_some {c : Cell} {v : Int} (h : c.opd = some v) (make : Int → Instr) :
    requireOperand c make = .ok (make v) := by
  simp [requireOperand, h]

theorem requireOperand_none {c : Cell} (h : c.opd = none) (make : Int → Instr) :
    requireOperand c make = .error (.operandMissing c) := by
  simp [requireOperand, h]

theorem requireValue_some {c : Cell} {v : Int} (h : c.opd = some v) (hv : fitsW v = true)
    (make : Int → Instr) : requireValue c make = .ok (make v) := by
  simp [requireValue, h, hv]

theorem requireValue_unfit {c : Cell} {v : Int} (h : c.opd = some v) (hv : fitsW v = false)
    (make : Int → Instr) : requireValue c make = .error (.operandOutOfRange c) := by
  simp [requireValue, h, hv]

theorem requireValue_none {c : Cell} (h : c.opd = none) (make : Int → Instr) :
    requireValue c make = .error (.operandMissing c) := by
  simp [requireValue, h]

theorem forbidOperand_none {c : Cell} (h : c.opd = none) (i : Instr) :
    forbidOperand c i = .ok i := by
  simp [forbidOperand, h]

theorem forbidOperand_some {c : Cell} {v : Int} (h : c.opd = some v) (i : Instr) :
    forbidOperand c i = .error (.operandForbidden c) := by
  simp [forbidOperand, h]

/-- R69: one rule per slot, the decoder's table read off once. -/
theorem classify_slots (c : Cell) :
    (c.opc = 0#4 → classify c = forbidOperand c .noOp) ∧
    (c.opc = 1#4 → classify c = requireValue c .loadAi) ∧
    (c.opc = 2#4 → classify c = requireValue c .loadBi) ∧
    (c.opc = 3#4 → classify c = forbidOperand c .addAb) ∧
    (c.opc = 4#4 → classify c = forbidOperand c .subAb) ∧
    (c.opc = 5#4 → classify c = requireOperand c .jump) ∧
    (c.opc = 6#4 → classify c = requireOperand c .jumpEq) ∧
    (c.opc = 7#4 → classify c = requireOperand c .jumpGt) ∧
    (c.opc = 8#4 → classify c = requireOperand c .jumpLt) ∧
    (c.opc = 9#4 → classify c = forbidOperand c .swapAb) ∧
    (c.opc = 10#4 → classify c = forbidOperand c .swapAc) ∧
    (c.opc = 11#4 → classify c = forbidOperand c .incA) ∧
    (c.opc = 12#4 → classify c = forbidOperand c .cmpAb) ∧
    (c.opc = 13#4 → classify c = .ok (.reserved13 c.opd)) ∧
    (c.opc = 14#4 → classify c = .ok (.reserved14 c.opd)) ∧
    (c.opc = 15#4 → classify c = forbidOperand c .halt) := by
  obtain ⟨opc, opd⟩ := c
  refine ⟨?_, ?_, ?_, ?_, ?_, ?_, ?_, ?_, ?_, ?_, ?_, ?_, ?_, ?_, ?_, ?_⟩ <;>
    (intro h; cases h; rfl)

/-- The last arm of the decoder is slot 15 and no other: the named slots are told apart by the index. -/
theorem classify_opc15 (c : Cell) (h : 15 ≤ c.opc.toNat) : c.opc = 15#4 := by
  have := c.opc.isLt
  apply BitVec.eq_of_toNat_eq
  simp
  omega

/-- R64: what the decoder accepts is the instruction of the word's own cell. -/
theorem toCell_of_decode {w : CellWord} {i : Instr} (h : decode w = .ok i) :
    i.toCell = decodeCell w := by
  unfold decode at h
  generalize decodeCell w = c at h ⊢
  obtain ⟨opc, opd⟩ := c
  have hs := classify_slots ⟨opc, opd⟩
  rcases opIndex_cases opc with
    rfl | rfl | rfl | rfl | rfl | rfl | rfl | rfl | rfl | rfl | rfl | rfl | rfl | rfl | rfl | rfl <;>
    simp at hs <;> rw [hs] at h <;> cases opd with
  | none =>
    simp [forbidOperand, requireOperand, requireValue] at h <;> subst h <;> rfl
  | some v =>
    cases hv : fitsW v <;> simp [forbidOperand, requireOperand, requireValue, hv] at h <;>
      subst h <;> rfl

/-- R168: what the decoder rejects, it rejects with the word's own cell. -/
theorem cell_of_decode_error {w : CellWord} {e : DecodeError} (h : decode w = .error e) :
    e.cell = decodeCell w := by
  unfold decode at h
  generalize decodeCell w = c at h ⊢
  obtain ⟨opc, opd⟩ := c
  have hs := classify_slots ⟨opc, opd⟩
  rcases opIndex_cases opc with
    rfl | rfl | rfl | rfl | rfl | rfl | rfl | rfl | rfl | rfl | rfl | rfl | rfl | rfl | rfl | rfl <;>
    simp at hs <;> rw [hs] at h <;> cases opd with
  | none =>
    simp [forbidOperand, requireOperand, requireValue] at h <;> subst h <;> rfl
  | some v =>
    cases hv : fitsW v <;> simp [forbidOperand, requireOperand, requireValue, hv] at h <;>
      subst h <;> rfl

end Sys2Proof
end

