-- ==== Sys2Proof/Laws/Loader.lean ====
section
/-! SUPPORT. Laws/Loader: the mnemonic table, the tokens of a line and the value of digits. -/

namespace Sys2Proof.Machine

/-- R73, R76: every name of the table is a token, and stands for its own index. -/
theorem mnemonicTable_tokens : ∀ row ∈ mnemonicTable,
    row.1.toList ≠ [] ∧ (∀ ch ∈ row.1.toList, isBlankChar ch = false) ∧
    opcodeOf row.1.toList = some row.2 := by
  intro row h
  simp only [mnemonicTable, List.mem_cons, List.not_mem_nil, or_false] at h
  rcases h with rfl | rfl | rfl | rfl | rfl | rfl | rfl | rfl | rfl | rfl | rfl | rfl | rfl | rfl <;>
    exact ⟨by simp, by simp [isBlankChar], by rfl⟩

/-- An index a token stands for is one of the table. -/
theorem opcodeOf_mem {token : List Char} {opc : OpIndex} (h : opcodeOf token = some opc) :
    opc ∈ mnemonicTable.map Prod.snd := by
  unfold opcodeOf at h
  obtain ⟨row, hrow, rfl⟩ := Option.map_eq_some_iff.mp h
  exact List.mem_map_of_mem (List.mem_of_find?_eq_some hrow)

theorem splitAtChars_piece (sep : Char → Bool) (piece : List Char)
    (h : ∀ ch ∈ piece, sep ch = false) : splitAtChars sep piece = [piece] := by
  induction piece with
  | nil => rfl
  | cons ch rest ih => simp [splitAtChars, h ch (by simp), ih fun d hd => h d (by simp [hd])]

theorem splitAtChars_append (sep : Char → Bool) (piece rest : List Char) (ch : Char)
    (h : ∀ d ∈ piece, sep d = false) (hch : sep ch = true) :
    splitAtChars sep (piece ++ ch :: rest) = piece :: splitAtChars sep rest := by
  induction piece with
  | nil => simp [splitAtChars, hch]
  | cons d tail ih => simp [splitAtChars, h d (by simp), ih fun e he => h e (by simp [he])]

theorem tokensOf_blank {ch : Char} (h : isBlankChar ch = true) (rest : List Char) :
    tokensOf (ch :: rest) = tokensOf rest := by
  simp [tokensOf, splitAtChars, h]

/-- R75: white space before a line's first token is ignored. -/
theorem tokensOf_blanks_append {lead : List Char} (h : ∀ ch ∈ lead, isBlankChar ch = true)
    (rest : List Char) : tokensOf (lead ++ rest) = tokensOf rest := by
  induction lead with
  | nil => rfl
  | cons ch tail ih =>
    rw [List.cons_append, tokensOf_blank (h ch (by simp)), ih fun d hd => h d (by simp [hd])]

/-- R75: a line of white space only has no token. -/
theorem tokensOf_blanks {line : List Char} (h : ∀ ch ∈ line, isBlankChar ch = true) :
    tokensOf line = [] := by
  have := tokensOf_blanks_append h []
  rw [List.append_nil] at this
  rw [this]
  rfl

/-- R75: white space after a token ends it. -/
theorem tokensOf_token_append {token sep : List Char} (ht : token ≠ [])
    (h : ∀ ch ∈ token, isBlankChar ch = false) (hs : ∀ ch ∈ sep, isBlankChar ch = true)
    (hne : sep ≠ []) (rest : List Char) :
    tokensOf (token ++ (sep ++ rest)) = token :: tokensOf rest := by
  obtain ⟨b, tail, rfl⟩ := List.exists_cons_of_ne_nil hne
  have hb := hs b (by simp)
  rw [List.cons_append, tokensOf, splitAtChars_append _ _ _ _ h hb,
    List.filter_cons_of_pos (by simpa using ht)]
  exact congrArg (token :: ·) (tokensOf_blanks_append (fun d hd => hs d (by simp [hd])) rest)

/-- R75: the last token of a line, with or without white space after it. -/
theorem tokensOf_last {token trail : List Char} (ht : token ≠ [])
    (h : ∀ ch ∈ token, isBlankChar ch = false) (hs : ∀ ch ∈ trail, isBlankChar ch = true) :
    tokensOf (token ++ trail) = [token] := by
  by_cases hne : trail = []
  · simp [hne, tokensOf, splitAtChars_piece _ _ h, ht]
  · have := tokensOf_token_append ht h hs hne []
    rw [List.append_nil] at this
    rw [this]
    rfl

/-- R73: a token stands for an index exactly when the table has the two in one row. -/
theorem opcodeOf_eq_some_iff (token : List Char) (opc : OpIndex) :
    opcodeOf token = some opc ↔ ∃ name, token = name.toList ∧ (name, opc) ∈ mnemonicTable := by
  constructor
  · intro h
    obtain ⟨row, hrow, rfl⟩ := Option.map_eq_some_iff.mp h
    refine ⟨row.1, ?_, List.mem_of_find?_eq_some hrow⟩
    have h : row.1.toList = token := by simpa using List.find?_some hrow
    exact h.symm
  · rintro ⟨name, rfl, h⟩
    exact (mnemonicTable_tokens _ h).2.2

/-- R75: what a run of decimal digits denotes, and that nothing else denotes a number. -/
theorem digitsFrom_eq (acc : Nat) (digits : List Char) :
    digitsFrom acc digits =
      if digits.all Char.isDigit then
        some (digits.foldl (fun n ch => 10 * n + (ch.toNat - 48)) acc)
      else none := by
  induction digits generalizing acc with
  | nil => rfl
  | cons ch rest ih => by_cases h : ch.isDigit <;> simp [digitsFrom, h, ih]

end Sys2Proof.Machine
end

