-- ==== Sys2Proof/Laws/Memory.lean ====
section
/-! SUPPORT. Laws/Memory: reading after placing, and the canonical form of the image, which every
operation on it keeps. -/

namespace Sys2Proof.Machine

theorem Memory.empty_wf : Memory.empty.wf := by decide

theorem read_of_lt {m : Memory} {p : Nat} (h : p < m.size) :
    m.read p = some (lookupCell m.cells p) := if_pos h

theorem read_eq_none_iff (m : Memory) (p : Nat) : m.read p = none ↔ m.size ≤ p := by
  unfold Memory.read
  split <;> simp <;> omega

theorem read_some_lt {m : Memory} {p : Nat} {w : CellWord} (h : m.read p = some w) :
    p < m.size := by
  by_contra hn
  rw [(read_eq_none_iff m p).mpr (by omega)] at h
  cases h

/-- An address below every listed one reads as an unlisted address. -/
theorem lookupCell_unlisted (l : List (Nat × CellWord)) (p : Nat) (h : ∀ x ∈ l, x.1 ≠ p) :
    lookupCell l p = haltWord := by
  induction l with
  | nil => rfl
  | cons x rest ih =>
    have hx : x.1 ≠ p := h x (by simp)
    simp only [lookupCell, hx, if_false]
    exact ih fun y hy => h y (by simp [hy])

/-- Every entry after the store is the stored one or an old one. -/
theorem mem_storeCell {p : Nat} {w : CellWord} {l : List (Nat × CellWord)} {x : Nat × CellWord}
    (h : x ∈ storeCell p w l) : (x = (p, w) ∧ w ≠ haltWord) ∨ x ∈ l := by
  induction l with
  | nil =>
    simp only [storeCell] at h
    split at h
    · cases h
    · next hw => exact .inl ⟨by simpa using h, hw⟩
  | cons y rest ih =>
    simp only [storeCell] at h
    split at h
    · rcases List.mem_cons.mp h with rfl | h
      · simp
      · rcases ih h with h | h <;> simp [h]
    · split at h
      · split at h
        · simp [h]
        · next hw => rcases List.mem_cons.mp h with rfl | h <;> simp_all
      · split at h
        · exact .inr h
        · next hw => rcases List.mem_cons.mp h with rfl | h <;> simp_all

theorem storeCell_sorted (p : Nat) (w : CellWord) {l : List (Nat × CellWord)}
    (h : l.Pairwise (fun x y => x.1 < y.1)) :
    (storeCell p w l).Pairwise (fun x y => x.1 < y.1) := by
  induction l with
  | nil => simp only [storeCell]; split <;> simp
  | cons y rest ih =>
    obtain ⟨hy, hrest⟩ := List.pairwise_cons.mp h
    simp only [storeCell]
    split
    · next hlt =>
      refine List.pairwise_cons.mpr ⟨fun z hz => ?_, ih hrest⟩
      rcases mem_storeCell hz with ⟨rfl, -⟩ | hz
      · exact hlt
      · exact hy z hz
    · split
      · next heq =>
        split
        · exact hrest
        · exact List.pairwise_cons.mpr ⟨fun z hz => heq ▸ hy z hz, hrest⟩
      · split
        · exact h
        · refine List.pairwise_cons.mpr ⟨fun z hz => ?_, h⟩
          rcases List.mem_cons.mp hz with rfl | hz
          · show p < _; omega
          · have := hy z hz
            show p < _; omega

/-- What a lookup gives after a store, on a sorted list. -/
theorem lookupCell_storeCell (p : Nat) (w : CellWord) (q : Nat) {l : List (Nat × CellWord)}
    (h : l.Pairwise (fun x y => x.1 < y.1)) :
    lookupCell (storeCell p w l) q = if q = p then w else lookupCell l q := by
  induction l with
  | nil =>
    by_cases hw : w = haltWord <;> by_cases hq : q = p <;>
      simp [storeCell, lookupCell, hw, hq, eq_comm (a := p)]
  | cons y rest ih =>
    obtain ⟨hy, hrest⟩ := List.pairwise_cons.mp h
    obtain ⟨k, x⟩ := y
    have above : ∀ r, r ≤ k → lookupCell rest r = haltWord := fun r hr =>
      lookupCell_unlisted rest r fun z hz => by have := hy z hz; simp only at this; omega
    simp only [storeCell]
    split
    · next hlt =>
      simp only [lookupCell, ih hrest]
      split <;> split <;> first | rfl | omega
    · next hnlt =>
      split
      · next heq =>
        subst heq
        by_cases hw : w = haltWord <;> by_cases hq : q = k <;>
          simp [lookupCell, hw, hq, eq_comm (a := k)]
        exact above k le_rfl
      · next hne =>
        by_cases hw : w = haltWord <;> by_cases hq : q = p <;>
          simp [lookupCell, hw, hq, eq_comm (a := p)]
        · subst hq
          rw [if_neg hne, above q (by omega)]

theorem sizeHolding_lt (size p : Nat) : p < sizeHolding size p := by
  unfold sizeHolding; omega

theorem le_sizeHolding (size p : Nat) : size ≤ sizeHolding size p := by
  unfold sizeHolding; omega

/-- R8: placing a cell inside the address space keeps the bound of SIZE. -/
theorem sizeHolding_le {size p : Nat} (h : size ≤ 2 ^ Config.W) (hp : p < 2 ^ Config.W) :
    sizeHolding size p ≤ 2 ^ Config.W := by
  unfold sizeHolding
  omega

/-- Placing a cell keeps the canonical form. -/
theorem place_wf {m : Memory} (h : m.wf) (p : Nat) (w : CellWord) : (m.place p w).wf := by
  refine ⟨storeCell_sorted p w h.1, fun x hx => ?_⟩
  rcases mem_storeCell hx with ⟨rfl, hw⟩ | hx
  · exact ⟨hw, sizeHolding_lt m.size p⟩
  · exact ⟨(h.2 x hx).1, lt_of_lt_of_le (h.2 x hx).2 (le_sizeHolding m.size p)⟩

/-- A placed cell reads back. -/
theorem read_place_same {m : Memory} (h : m.wf) (p : Nat) (w : CellWord) :
    (m.place p w).read p = some w := by
  rw [read_of_lt (sizeHolding_lt m.size p)]
  simp [Memory.place, lookupCell_storeCell p w p h.1]

/-- Placing a cell leaves every other cell of the image alone. -/
theorem read_place_other {m : Memory} (h : m.wf) {p q : Nat} (hq : q ≠ p) (hs : q < m.size)
    (w : CellWord) : (m.place p w).read q = m.read q := by
  rw [read_of_lt hs, read_of_lt (lt_of_lt_of_le hs (le_sizeHolding m.size p))]
  simp [Memory.place, lookupCell_storeCell p w q h.1, hq]

theorem mem_listCells {p : Nat} {words : List CellWord} {x : Nat × CellWord}
    (h : x ∈ listCells p words) : x.2 ≠ haltWord ∧ p ≤ x.1 ∧ x.1 < p + words.length := by
  induction words generalizing p with
  | nil => cases h
  | cons w rest ih =>
    simp only [listCells] at h
    split at h
    · have := ih h
      simp only [List.length_cons]
      exact ⟨this.1, by omega, by omega⟩
    · next hw =>
      simp only [List.length_cons]
      rcases List.mem_cons.mp h with rfl | h
      · exact ⟨hw, by simp⟩
      · have := ih h
        exact ⟨this.1, by omega, by omega⟩

theorem listCells_sorted (p : Nat) (words : List CellWord) :
    (listCells p words).Pairwise (fun x y => x.1 < y.1) := by
  induction words generalizing p with
  | nil => simp [listCells]
  | cons w rest ih =>
    simp only [listCells]
    split
    · exact ih (p + 1)
    · exact List.pairwise_cons.mpr ⟨fun z hz => by have := mem_listCells hz; simp; omega, ih (p + 1)⟩

theorem imageOf_wf (words : List CellWord) : (imageOf words).wf :=
  ⟨listCells_sorted 0 words, fun x hx => by
    have := mem_listCells hx
    simp only [imageOf]
    exact ⟨this.1, by omega⟩⟩

end Sys2Proof.Machine
end

