-- ==== Sys2Proof/Laws/State.lean ====
section
/-! SUPPORT. Laws/State: one lemma per field per state update. -/

namespace Sys2Proof.Machine

@[simp] theorem advancePc_a (s : State) : s.advancePc.a = s.a := rfl
@[simp] theorem advancePc_b (s : State) : s.advancePc.b = s.b := rfl
@[simp] theorem advancePc_c (s : State) : s.advancePc.c = s.c := rfl
@[simp] theorem advancePc_pc (s : State) : s.advancePc.pc = advance s.mem.size s.pc := rfl
@[simp] theorem advancePc_zero (s : State) : s.advancePc.zero = s.zero := rfl
@[simp] theorem advancePc_negative (s : State) : s.advancePc.negative = s.negative := rfl
@[simp] theorem advancePc_halted (s : State) : s.advancePc.halted = s.halted := rfl
@[simp] theorem advancePc_err (s : State) : s.advancePc.err = s.err := rfl
@[simp] theorem advancePc_mem (s : State) : s.advancePc.mem = s.mem := rfl

@[simp] theorem setHalted_a (s : State) : s.setHalted.a = s.a := rfl
@[simp] theorem setHalted_b (s : State) : s.setHalted.b = s.b := rfl
@[simp] theorem setHalted_c (s : State) : s.setHalted.c = s.c := rfl
@[simp] theorem setHalted_pc (s : State) : s.setHalted.pc = s.pc := rfl
@[simp] theorem setHalted_zero (s : State) : s.setHalted.zero = s.zero := rfl
@[simp] theorem setHalted_negative (s : State) : s.setHalted.negative = s.negative := rfl
@[simp] theorem setHalted_halted (s : State) : s.setHalted.halted = true := rfl
@[simp] theorem setHalted_err (s : State) : s.setHalted.err = s.err := rfl
@[simp] theorem setHalted_mem (s : State) : s.setHalted.mem = s.mem := rfl

@[simp] theorem setRegA_a (s : State) (v : Int) : (s.setReg .A v).a = v := rfl
@[simp] theorem setRegA_b (s : State) (v : Int) : (s.setReg .A v).b = s.b := rfl
@[simp] theorem setRegA_c (s : State) (v : Int) : (s.setReg .A v).c = s.c := rfl
@[simp] theorem setRegA_pc (s : State) (v : Int) : (s.setReg .A v).pc = s.pc := rfl
@[simp] theorem setRegA_zero (s : State) (v : Int) : (s.setReg .A v).zero = s.zero := rfl
@[simp] theorem setRegA_negative (s : State) (v : Int) :
    (s.setReg .A v).negative = s.negative := rfl
@[simp] theorem setRegA_halted (s : State) (v : Int) : (s.setReg .A v).halted = s.halted := rfl
@[simp] theorem setRegA_err (s : State) (v : Int) : (s.setReg .A v).err = s.err := rfl
@[simp] theorem setRegA_mem (s : State) (v : Int) : (s.setReg .A v).mem = s.mem := rfl

@[simp] theorem setRegB_a (s : State) (v : Int) : (s.setReg .B v).a = s.a := rfl
@[simp] theorem setRegB_b (s : State) (v : Int) : (s.setReg .B v).b = v := rfl
@[simp] theorem setRegB_c (s : State) (v : Int) : (s.setReg .B v).c = s.c := rfl
@[simp] theorem setRegB_pc (s : State) (v : Int) : (s.setReg .B v).pc = s.pc := rfl
@[simp] theorem setRegB_zero (s : State) (v : Int) : (s.setReg .B v).zero = s.zero := rfl
@[simp] theorem setRegB_negative (s : State) (v : Int) :
    (s.setReg .B v).negative = s.negative := rfl
@[simp] theorem setRegB_halted (s : State) (v : Int) : (s.setReg .B v).halted = s.halted := rfl
@[simp] theorem setRegB_err (s : State) (v : Int) : (s.setReg .B v).err = s.err := rfl
@[simp] theorem setRegB_mem (s : State) (v : Int) : (s.setReg .B v).mem = s.mem := rfl

@[simp] theorem setRegC_a (s : State) (v : Int) : (s.setReg .C v).a = s.a := rfl
@[simp] theorem setRegC_b (s : State) (v : Int) : (s.setReg .C v).b = s.b := rfl
@[simp] theorem setRegC_c (s : State) (v : Int) : (s.setReg .C v).c = v := rfl
@[simp] theorem setRegC_pc (s : State) (v : Int) : (s.setReg .C v).pc = s.pc := rfl
@[simp] theorem setRegC_zero (s : State) (v : Int) : (s.setReg .C v).zero = s.zero := rfl
@[simp] theorem setRegC_negative (s : State) (v : Int) :
    (s.setReg .C v).negative = s.negative := rfl
@[simp] theorem setRegC_halted (s : State) (v : Int) : (s.setReg .C v).halted = s.halted := rfl
@[simp] theorem setRegC_err (s : State) (v : Int) : (s.setReg .C v).err = s.err := rfl
@[simp] theorem setRegC_mem (s : State) (v : Int) : (s.setReg .C v).mem = s.mem := rfl

@[simp] theorem writeAddFlags_a (s : State) (r : Int) : (s.writeAddFlags r).a = s.a := rfl
@[simp] theorem writeAddFlags_b (s : State) (r : Int) : (s.writeAddFlags r).b = s.b := rfl
@[simp] theorem writeAddFlags_c (s : State) (r : Int) : (s.writeAddFlags r).c = s.c := rfl
@[simp] theorem writeAddFlags_pc (s : State) (r : Int) : (s.writeAddFlags r).pc = s.pc := rfl
@[simp] theorem writeAddFlags_zero (s : State) (r : Int) :
    (s.writeAddFlags r).zero = decide (r = 0) := rfl
@[simp] theorem writeAddFlags_negative (s : State) (r : Int) :
    (s.writeAddFlags r).negative = s.negative := rfl
@[simp] theorem writeAddFlags_halted (s : State) (r : Int) :
    (s.writeAddFlags r).halted = s.halted := rfl
@[simp] theorem writeAddFlags_err (s : State) (r : Int) : (s.writeAddFlags r).err = s.err := rfl
@[simp] theorem writeAddFlags_mem (s : State) (r : Int) : (s.writeAddFlags r).mem = s.mem := rfl

@[simp] theorem writeSubFlags_a (s : State) (r : Int) : (s.writeSubFlags r).a = s.a := rfl
@[simp] theorem writeSubFlags_b (s : State) (r : Int) : (s.writeSubFlags r).b = s.b := rfl
@[simp] theorem writeSubFlags_c (s : State) (r : Int) : (s.writeSubFlags r).c = s.c := rfl
@[simp] theorem writeSubFlags_pc (s : State) (r : Int) : (s.writeSubFlags r).pc = s.pc := rfl
@[simp] theorem writeSubFlags_zero (s : State) (r : Int) :
    (s.writeSubFlags r).zero = decide (r = 0) := rfl
@[simp] theorem writeSubFlags_negative (s : State) (r : Int) :
    (s.writeSubFlags r).negative = decide (r < 0) := rfl
@[simp] theorem writeSubFlags_halted (s : State) (r : Int) :
    (s.writeSubFlags r).halted = s.halted := rfl
@[simp] theorem writeSubFlags_err (s : State) (r : Int) : (s.writeSubFlags r).err = s.err := rfl
@[simp] theorem writeSubFlags_mem (s : State) (r : Int) : (s.writeSubFlags r).mem = s.mem := rfl

@[simp] theorem raiseFatal_a (cause : ErrCause) (cell : Cell) (s : State) :
    (raiseFatal cause cell s).a = s.a := rfl
@[simp] theorem raiseFatal_b (cause : ErrCause) (cell : Cell) (s : State) :
    (raiseFatal cause cell s).b = s.b := rfl
@[simp] theorem raiseFatal_c (cause : ErrCause) (cell : Cell) (s : State) :
    (raiseFatal cause cell s).c = s.c := rfl
@[simp] theorem raiseFatal_pc (cause : ErrCause) (cell : Cell) (s : State) :
    (raiseFatal cause cell s).pc = advance s.mem.size s.pc := rfl
@[simp] theorem raiseFatal_zero (cause : ErrCause) (cell : Cell) (s : State) :
    (raiseFatal cause cell s).zero = s.zero := rfl
@[simp] theorem raiseFatal_negative (cause : ErrCause) (cell : Cell) (s : State) :
    (raiseFatal cause cell s).negative = s.negative := rfl
@[simp] theorem raiseFatal_halted (cause : ErrCause) (cell : Cell) (s : State) :
    (raiseFatal cause cell s).halted = true := rfl
@[simp] theorem raiseFatal_err (cause : ErrCause) (cell : Cell) (s : State) :
    (raiseFatal cause cell s).err = ⟨cause, s.pc, cell.opc, cell.opd⟩ := rfl
@[simp] theorem raiseFatal_mem (cause : ErrCause) (cell : Cell) (s : State) :
    (raiseFatal cause cell s).mem = s.mem := rfl

@[simp] theorem resetWith_a (r : RegReset) (m : Memory) : (State.resetWith r m).a = r.a := rfl
@[simp] theorem resetWith_b (r : RegReset) (m : Memory) : (State.resetWith r m).b = r.b := rfl
@[simp] theorem resetWith_c (r : RegReset) (m : Memory) : (State.resetWith r m).c = r.c := rfl
@[simp] theorem resetWith_pc (r : RegReset) (m : Memory) : (State.resetWith r m).pc = 0 := rfl
@[simp] theorem resetWith_zero (r : RegReset) (m : Memory) : (State.resetWith r m).zero = false := rfl
@[simp] theorem resetWith_negative (r : RegReset) (m : Memory) : (State.resetWith r m).negative = false := rfl
@[simp] theorem resetWith_halted (r : RegReset) (m : Memory) : (State.resetWith r m).halted = false := rfl
@[simp] theorem resetWith_err (r : RegReset) (m : Memory) : (State.resetWith r m).err = ErrLatch.reset := rfl
@[simp] theorem resetWith_mem (r : RegReset) (m : Memory) : (State.resetWith r m).mem = m := rfl

@[simp] theorem getReg_A (s : State) : s.getReg .A = s.a := rfl
@[simp] theorem getReg_B (s : State) : s.getReg .B = s.b := rfl
@[simp] theorem getReg_C (s : State) : s.getReg .C = s.c := rfl

@[simp] theorem getReg_setReg_same (s : State) (r : Reg) (v : Int) :
    (s.setReg r v).getReg r = v := by
  cases r <;> rfl

@[simp] theorem getReg_setReg_other (s : State) (r q : Reg) (v : Int) (h : q ≠ r) :
    (s.setReg r v).getReg q = s.getReg q := by
  cases r <;> cases q <;> first | rfl | exact absurd rfl h

end Sys2Proof.Machine
end

