-- ==== Sys2Proof/Laws/Ops.lean ====
section
/-! SUPPORT. Laws/Ops: what each shared operation can do, once. -/

namespace Sys2Proof.Machine

theorem advance_lt {size p : Nat} (h : p < size) : advance size p < size := by
  unfold advance
  split <;> omega

theorem advancePc_eq_afterFetch (s : State) : s.advancePc = afterFetch s := rfl

theorem raiseFatal_eq_stopped (cause : ErrCause) (cell : Cell) (s : State) :
    raiseFatal cause cell s = stopped cause cell.opc cell.opd s := rfl

/-- R131: `set` with a target of the image. -/
theorem setPc_valid {t : Int} {s : State} (h : 0 ≤ t ∧ t < s.mem.size) (opc : OpIndex) :
    setPc opc t s = { s with pc := t.toNat } := by
  rw [setPc, if_pos ((validTarget_iff _ _).mpr h)]
  rfl

/-- R131: `set` with a target outside the image. -/
theorem setPc_invalid {t : Int} {s : State} (h : ¬(0 ≤ t ∧ t < s.mem.size)) (opc : OpIndex) :
    setPc opc t s = stopped .invalidAddress opc (some t) s := by
  rw [setPc, if_neg (by rw [validTarget_iff]; exact h)]
  rfl

/-- R131, R168: a jump leaves the advanced pc, or takes a target of the image, or stops. -/
theorem jumpIf_cases (cond : Bool) (opc : OpIndex) (t : Int) (s : State) :
    (cond = false ∧ jumpIf cond opc t s = afterFetch s) ∨
    (cond = true ∧ (0 ≤ t ∧ t < s.mem.size) ∧ jumpIf cond opc t s = { s with pc := t.toNat }) ∨
    (cond = true ∧ ¬(0 ≤ t ∧ t < s.mem.size) ∧
      jumpIf cond opc t s = stopped .invalidAddress opc (some t) s) := by
  cases cond with
  | false => exact .inl ⟨rfl, rfl⟩
  | true =>
    by_cases h : 0 ≤ t ∧ t < s.mem.size
    · exact .inr (.inl ⟨rfl, h, setPc_valid h opc⟩)
    · exact .inr (.inr ⟨rfl, h, setPc_invalid h opc⟩)

/-- R130: a jump writes no register, no flag and no cell, whatever its condition and target. -/
theorem jumpIf_frame (cond : Bool) (opc : OpIndex) (t : Int) (s : State) :
    (jumpIf cond opc t s).a = s.a ∧ (jumpIf cond opc t s).b = s.b ∧ (jumpIf cond opc t s).c = s.c ∧
    (jumpIf cond opc t s).zero = s.zero ∧ (jumpIf cond opc t s).negative = s.negative ∧
    (jumpIf cond opc t s).mem = s.mem := by
  rcases jumpIf_cases cond opc t s with ⟨-, h⟩ | ⟨-, -, h⟩ | ⟨-, -, h⟩ <;> rw [h] <;>
    exact ⟨rfl, rfl, rfl, rfl, rfl, rfl⟩

/-- R80: a step of a running block whose pc is in the image runs the fetched word. -/
theorem step_of_fetches {s : State} {w : CellWord} (h : Fetches s w) : step s = runWord w s := by
  simp [step, cycleOrHold, runCycle, h.1, h.2]

theorem step_of_halted {s : State} (h : s.halted = true) : step s = .next s := by
  simp [step, cycleOrHold, h]

theorem runWord_of_ok {w : CellWord} {i : Instr} (h : decode w = .ok i) (s : State) :
    runWord w s = exec i s := by
  simp [runWord, h]

theorem runWord_of_error {w : CellWord} {e : DecodeError} (h : decode w = .error e) (s : State) :
    runWord w s = .next (raiseFatal .invalidOperand e.cell s) := by
  simp [runWord, h]

/-- A block is halted, or fetches a word, or stands outside the image. -/
theorem fetch_cases (s : State) :
    s.halted = true ∨ (∃ w, Fetches s w) ∨ (s.halted = false ∧ s.mem.read s.pc = none) := by
  cases hh : s.halted with
  | true => exact .inl rfl
  | false =>
    cases hm : s.mem.read s.pc with
    | none => exact .inr (.inr ⟨rfl, rfl⟩)
    | some w => exact .inr (.inl ⟨w, hh, hm⟩)

theorem run_zero (s : State) : core.run 0 s = .next s := rfl

/-- One step of a run. -/
theorem run_succ {s t : State} (h : step s = .next t) (n : Nat) :
    core.run (n + 1) s = core.run n t := by
  have h' : core.step s = .next t := h
  simp only [Host.Core.run, h']

theorem run_succ_fault {s : State} {f : Fault} (h : step s = .fault f) (n : Nat) :
    core.run (n + 1) s = .fault f := by
  have h' : core.step s = .fault f := h
  simp only [Host.Core.run, h']

theorem run_succ_refused {s : State} {f : Refusal} (h : step s = .refused f) (n : Nat) :
    core.run (n + 1) s = .refused f := by
  have h' : core.step s = .refused f := h
  simp only [Host.Core.run, h']

/-- Replaying a joined trace is replaying its parts in order. -/
theorem replay_append (es fs : List Event) (s : State) :
    replay (es ++ fs) s = replay fs (replay es s) := List.foldl_append

end Sys2Proof.Machine
end

