-- ==== Sys2Proof/Laws/PerInstr.lean ====
section
/-! SUPPORT. Laws/PerInstr: the family SlotRoundTrip, one lemma per constructor of Instr. -/

namespace Sys2Proof.Laws.SlotRoundTrip

/-- R64, R69: the decoder's slot for the cell of a well-formed instruction is that instruction. -/
def Statement (i : Instr) : Prop := i.wellFormed = true → classify i.toCell = .ok i

theorem noOp : Statement .noOp := fun _ => rfl
theorem loadAi (v : Int) : Statement (.loadAi v) := fun h =>
  requireValue_some (c := ⟨1#4, some v⟩) rfl h .loadAi
theorem loadBi (v : Int) : Statement (.loadBi v) := fun h =>
  requireValue_some (c := ⟨2#4, some v⟩) rfl h .loadBi
theorem addAb : Statement .addAb := fun _ => rfl
theorem subAb : Statement .subAb := fun _ => rfl
theorem jump (t : Int) : Statement (.jump t) := fun _ => rfl
theorem jumpEq (t : Int) : Statement (.jumpEq t) := fun _ => rfl
theorem jumpGt (t : Int) : Statement (.jumpGt t) := fun _ => rfl
theorem jumpLt (t : Int) : Statement (.jumpLt t) := fun _ => rfl
theorem swapAb : Statement .swapAb := fun _ => rfl
theorem swapAc : Statement .swapAc := fun _ => rfl
theorem incA : Statement .incA := fun _ => rfl
theorem cmpAb : Statement .cmpAb := fun _ => rfl
theorem reserved13 (opd : Option Int) : Statement (.reserved13 opd) := fun _ => rfl
theorem reserved14 (opd : Option Int) : Statement (.reserved14 opd) := fun _ => rfl
theorem halt : Statement .halt := fun _ => rfl

end Sys2Proof.Laws.SlotRoundTrip
end

