-- ==== Sys2Proof/Tests/Slice0.lean ====
section
/-! SUPPORT. Tests/Slice0: the model's own tests.  Expected results are the vectors of
spec/95_test_vectors.md (named V-..), which that file derives from the rules, or its section 1, which
transcribes the source; where another file is meant, it is named.  The last part holds one witness for
every statement with hypotheses. -/

namespace Sys2Proof.Tests

open Sys2Proof Sys2Proof.Machine

/-- A running block with one cell placed at its pc; the rest of the image reads HALT. -/
def cellAt (a b c : Int) (zero negative : Bool) (pc size : Nat) (w : CellWord) : State :=
  { a := a, b := b, c := c, pc := pc, zero := zero, negative := negative, halted := false,
    err := ErrLatch.reset,
    mem := { size := size, cells := if w = haltWord then [] else [(pc, w)] } }

/-- The fields a test looks at: A, B, C; zero, negative, halted; pc. -/
def fieldsOf (o : Host.Outcome State Fault Refusal) : Option (List Int × List Bool × Nat) :=
  match o with
  | .next s => some ([s.a, s.b, s.c], [s.zero, s.negative, s.halted], s.pc)
  | .fault _ => none
  | .refused _ => none

/-- pc, halted and ERR. -/
def stopOf (o : Host.Outcome State Fault Refusal) : Option (Nat × Bool × ErrLatch) :=
  match o with
  | .next s => some (s.pc, s.halted, s.err)
  | .fault _ => none
  | .refused _ => none

/-! ### WellFormed: an ill-formed term for each check (R62, R68) -/

theorem test_wellFormed_loadAi_low : (Instr.loadAi (-65536)).wellFormed = false := by decide
theorem test_wellFormed_loadBi_high : (Instr.loadBi 65536).wellFormed = false := by decide
theorem test_wellFormed_jump_high : (Instr.jump 65536).wellFormed = false := by decide
theorem test_wellFormed_jumpEq_low : (Instr.jumpEq (-65537)).wellFormed = false := by decide
theorem test_wellFormed_jumpGt_high : (Instr.jumpGt 65536).wellFormed = false := by decide
theorem test_wellFormed_jumpLt_low : (Instr.jumpLt (-65537)).wellFormed = false := by decide
theorem test_wellFormed_reserved13 : (Instr.reserved13 (some 65536)).wellFormed = false := by decide
theorem test_wellFormed_reserved14 : (Instr.reserved14 (some (-65537))).wellFormed = false := by decide
theorem test_wellFormed_jump_far : (Instr.jump (-65536)).wellFormed = true := by decide

/-! ### Decode: each constructor by a word of V-E1 to V-E18, bit by bit, and the words refused by name -/

theorem test_decode_noOp : decode 0b0000000000000000000000#22 = .ok .noOp := by decide
theorem test_decode_loadAi : decode 0b0001111111111111111111#22 = .ok (.loadAi (-1)) := by decide
theorem test_decode_loadAi_low : decode 0b0001110000000000000001#22 = .ok (.loadAi (-65535)) := by decide
theorem test_decode_loadBi : decode 0b0010101111111111111111#22 = .ok (.loadBi 65535) := by decide
theorem test_decode_addAb : decode 0b0011000000000000000000#22 = .ok .addAb := by decide
theorem test_decode_subAb : decode 0b0100000000000000000000#22 = .ok .subAb := by decide
theorem test_decode_jump : decode 0b0101100000000000000000#22 = .ok (.jump 0) := by decide
theorem test_decode_jumpEq : decode 0b0110101111111111111111#22 = .ok (.jumpEq 65535) := by decide
theorem test_decode_jumpGt : decode 0b0111100000000000000010#22 = .ok (.jumpGt 2) := by decide
theorem test_decode_jumpLt : decode 0b1000100000000000000010#22 = .ok (.jumpLt 2) := by decide
theorem test_decode_swapAb : decode 0b1001000000000000000000#22 = .ok .swapAb := by decide
theorem test_decode_swapAc : decode 0b1010000000000000000000#22 = .ok .swapAc := by decide
theorem test_decode_incA : decode 0b1011000000000000000000#22 = .ok .incA := by decide
theorem test_decode_cmpAb : decode 0b1100000000000000000000#22 = .ok .cmpAb := by decide
theorem test_decode_reserved13 : decode 0b1101000000000000000000#22 = .ok (.reserved13 none) := by decide
theorem test_decode_reserved14 : decode 0b1110100000000000000001#22 = .ok (.reserved14 (some 1)) := by
  decide
theorem test_decode_halt : decode 0b1111000000000000000000#22 = .ok .halt := by decide

/-- 95 section 2.5: the `imm` bits of a word without operand are ignored. -/
theorem test_decode_ignored_imm : decode 0x0C1234#22 = .ok .addAb := by decide
theorem test_decode_missing : decode 0x040000#22 = .error (.operandMissing ⟨1#4, none⟩) := by decide
theorem test_decode_forbidden : decode 0x3FFFFF#22 = .error (.operandForbidden ⟨15#4, some (-1)⟩) := by
  decide
theorem test_decode_range : decode 0x070000#22 = .error (.operandOutOfRange ⟨1#4, some (-65536)⟩) := by
  decide

/-- R70's examples. -/
theorem test_encode_loadAi : encode (.loadAi 5) = 0x060005#22 := by decide
theorem test_encode_loadBi : encode (.loadBi (-65535)) = 0x0B0001#22 := by decide
theorem test_encode_jumpLt : encode (.jumpLt 2) = 0x220002#22 := by decide

/-- The host's entries on rows of the table (24 bits in whole bytes); a number above 22 bits is no
cell. -/
theorem test_tableWord_swapAb : decodeTableWord 24 0x240000 = some .swapAb := by decide
theorem test_tableWord_wide : decodeTableWord 24 0x640000 = none := by decide
theorem test_withFetchWord_halt :
    stopOf (step (State.reset.withFetchWord 24 0x3C0000)) = some (1, true, ErrLatch.reset) := by decide

/-! ### One step of each instruction -/

/-- V-M1 -/
theorem test_loadAi_zero : fieldsOf (step (cellAt 1 2 3 true true 4 8 0x060000#22)) =
    some ([0, 2, 3], [true, true, false], 5) := by decide
/-- V-M10 -/
theorem test_loadAi_unfit : stopOf (step (cellAt 1 2 3 true true 4 8 0x070000#22)) =
    some (5, true, ⟨.invalidOperand, 4, 1#4, some (-65536)⟩) := by decide
/-- V-M6 -/
theorem test_loadBi : fieldsOf (step (cellAt 1 2 3 true true 4 8 0x0BFFFD#22)) =
    some ([1, -3, 3], [true, true, false], 5) := by decide
/-- V-M7 -/
theorem test_swapAb : fieldsOf (step (cellAt 1 2 3 true true 4 8 0x240000#22)) =
    some ([2, 1, 3], [true, true, false], 5) := by decide
/-- V-M12 -/
theorem test_swapAb_operand : stopOf (step (cellAt 1 2 3 true true 4 8 0x260000#22)) =
    some (5, true, ⟨.invalidOperand, 4, 9#4, some 0⟩) := by decide
/-- V-M8 -/
theorem test_swapAc : fieldsOf (step (cellAt 1 2 3 true true 4 8 0x280000#22)) =
    some ([3, 2, 1], [true, true, false], 5) := by decide
/-- V-A1: `negative` untouched by add. -/
theorem test_addAb : fieldsOf (step (cellAt 3 4 9 true true 4 8 0x0C0000#22)) =
    some ([3, 4, 7], [false, true, false], 5) := by decide
/-- V-A4: Overflow, the stale `zero` stays. -/
theorem test_addAb_overflow : fieldsOf (step (cellAt (-65535) (-1) 9 true false 4 8 0x0C0000#22)) =
    some ([-65535, -1, 9], [true, false, false], 5) := by decide
/-- V-A7 -/
theorem test_subAb : fieldsOf (step (cellAt 7 12 9 true false 4 8 0x100000#22)) =
    some ([7, 12, -5], [false, true, false], 5) := by decide
/-- V-A8 -/
theorem test_subAb_overflow : fieldsOf (step (cellAt 65535 (-65535) 9 true true 4 8 0x100000#22)) =
    some ([65535, -65535, 9], [true, true, false], 5) := by decide
/-- V-A10: a zero result is written and sets no flag. -/
theorem test_incA : fieldsOf (step (cellAt (-1) 0 0 false false 4 8 0x2C0000#22)) =
    some ([0, 0, 0], [false, false, false], 5) := by decide
/-- V-A11 -/
theorem test_incA_overflow : fieldsOf (step (cellAt 65535 0 0 false false 4 8 0x2C0000#22)) =
    some ([65535, 0, 0], [false, false, false], 5) := by decide
/-- V-A13 -/
theorem test_cmpAb : fieldsOf (step (cellAt 3 3 9 false true 4 8 0x300000#22)) =
    some ([3, 3, 9], [true, false, false], 5) := by decide
/-- V-A15 -/
theorem test_cmpAb_overflow : fieldsOf (step (cellAt 65535 (-1) 9 true true 4 8 0x300000#22)) =
    some ([65535, -1, 9], [true, true, false], 5) := by decide
/-- V-C1 -/
theorem test_jump : stopOf (step (cellAt 0 0 0 true true 2 6 0x160005#22)) =
    some (5, false, ErrLatch.reset) := by decide
/-- V-C5 -/
theorem test_jump_negative : stopOf (step (cellAt 0 0 0 true true 2 6 0x17FFFF#22)) =
    some (3, true, ⟨.invalidAddress, 2, 5#4, some (-1)⟩) := by decide
/-- V-C9: not taken, the target is not looked at. -/
theorem test_jumpEq_not_taken : stopOf (step (cellAt 0 0 0 false false 2 6 0x1A0063#22)) =
    some (3, false, ErrLatch.reset) := by decide
/-- V-C10 -/
theorem test_jumpEq_far : stopOf (step (cellAt 0 0 0 true false 2 6 0x1A0063#22)) =
    some (3, true, ⟨.invalidAddress, 2, 6#4, some 99⟩) := by decide
/-- V-C11 -/
theorem test_jumpGt : stopOf (step (cellAt 0 0 0 false false 2 6 0x1E0004#22)) =
    some (4, false, ErrLatch.reset) := by decide
/-- V-C12 -/
theorem test_jumpGt_not_taken : stopOf (step (cellAt 0 0 0 false true 2 6 0x1E0004#22)) =
    some (3, false, ErrLatch.reset) := by decide
/-- V-C15 -/
theorem test_jumpLt : stopOf (step (cellAt 0 0 0 false true 2 6 0x220004#22)) =
    some (4, false, ErrLatch.reset) := by decide
/-- V-C17 -/
theorem test_jumpLt_not_taken : stopOf (step (cellAt 0 0 0 true true 2 6 0x220004#22)) =
    some (3, false, ErrLatch.reset) := by decide
/-- V-C25: HALT in the last cell, the pc wraps. -/
theorem test_halt_last : stopOf (step (cellAt 0 0 0 true true 5 6 0x3C0000#22)) =
    some (0, true, ErrLatch.reset) := by decide
/-- V-C22 -/
theorem test_halt_operand : stopOf (step (cellAt 0 0 0 true true 2 6 0x3E0007#22)) =
    some (3, true, ⟨.invalidOperand, 2, 15#4, some 7⟩) := by decide
/-- V-C20 -/
theorem test_noOp : fieldsOf (step (cellAt 1 2 3 true false 2 6 0x000000#22)) =
    some ([1, 2, 3], [true, false, false], 3) := by decide
/-- V-C24: InvalidOpcode has priority. -/
theorem test_reserved13 : stopOf (step (cellAt 0 0 0 true true 2 6 0x360001#22)) =
    some (3, true, ⟨.invalidOpcode, 2, 13#4, some 1⟩) := by decide
/-- S8, opc 14. -/
theorem test_reserved14 : stopOf (step (cellAt 0 0 0 false false 1 3 0x380000#22)) =
    some (2, true, ⟨.invalidOpcode, 1, 14#4, none⟩) := by decide

/-! ### Events, loader, ports -/

/-- V-M7's events. -/
theorem test_events_swapAb : cycleEvents (cellAt 1 2 3 true true 4 8 0x240000#22) =
    [.fetch 4 9#4 none, .regWrite .A 2, .regWrite .B 1] := by decide
/-- V-C4's events. -/
theorem test_events_jump_far : cycleEvents (cellAt 0 0 0 true true 2 6 0x160006#22) =
    [.fetch 2 5#4 (some 6), .error .invalidAddress 2 5#4 (some 6)] := by decide
/-- R72 to R75: a blank line, white space, `None`, a negative integer. -/
theorem test_parse : parseText "LOAD_AI -3\n\n \tHALT  None \nADD_AB".toList =
    .ok [⟨1#4, some (-3)⟩, ⟨15#4, none⟩, ⟨3#4, none⟩] := by decide
/-- R75 with log entry 14: a form feed is no white space. -/
theorem test_parse_formFeed : parseText ['H', 'A', 'L', 'T', Char.ofNat 12] =
    .error (.unknownMnemonic ['H', 'A', 'L', 'T', Char.ofNat 12]) := by decide
/-- R73: another spelling is unknown. -/
theorem test_parse_case : parseText "Halt".toList = .error (.unknownMnemonic "Halt".toList) := by decide
/-- R74, R75: a token that is no integer, an integer too large, a third token. -/
theorem test_parse_errors :
    parseText "LOAD_AI x".toList = .error (.badOperand "x".toList) ∧
    parseText "JUMP 65536".toList = .error (.operandOutOfRange 65536) ∧
    parseText "JUMP 1 2".toList = .error (.malformedLine "JUMP 1 2".toList) := by decide
/-- S4, R184: the image of LOAD_AI 5 has SIZE 2 and the appended HALT at 1. -/
theorem test_image : (imageOf [0x060005#22]).read 0 = some 0x060005#22 ∧
    (imageOf [0x060005#22]).read 1 = some 0x3C0000#22 ∧ (imageOf [0x060005#22]).read 2 = none := by
  decide
/-- V-P6, R181: the empty program is one Cycle long. -/
theorem test_empty_program : stopOf (step State.reset) = some (0, true, ErrLatch.reset) := by decide
/-- R9: AW for SIZE 1, 2, 3, 65536. -/
theorem test_addrWidth : addrWidth 1 = 1 ∧ addrWidth 2 = 1 ∧ addrWidth 3 = 2 ∧ addrWidth 65536 = 16 := by
  decide

/-! ### Witnesses: for each statement with hypotheses, values that meet them together -/

/-- ADD_AB in the cell 2 of an image of six cells. -/
def wAdd : State := cellAt 3 4 9 true true 2 6 0x0C0000#22
/-- JUMP 5, the last cell. -/
def wJump : State := cellAt 0 0 0 true true 2 6 0x160005#22
/-- HALT with an operand. -/
def wBad : State := cellAt 0 0 0 true true 2 6 0x3E0007#22

theorem witness_EncodedCellDecodes : ∀ v, (Cell.mk 1#4 (some (-65536))).opd = some v →
    -65536 ≤ v ∧ v ≤ 65535 := by
  intro v h
  cases h
  decide
theorem witness_EncodedInstructionDecodes :
    (Instr.loadAi (-65535)).wellFormed = true ∧ (Instr.jump (-65536)).wellFormed = true := by decide
theorem witness_CanonicalWordReencodes :
    (decode 0x070001#22 = .ok (.loadAi (-65535)) ∧ presentBit 0x070001#22 = true) ∧
    (decode 0x0C0000#22 = .ok .addAb ∧ immField 0x0C0000#22 = 0#17) := by decide
theorem witness_DecodedInstructionIsWellFormed : decode 0x06FFFF#22 = .ok (.loadAi 65535) := by decide
theorem witness_StepRunsDecodedInstruction :
    Fetches wAdd 0x0C0000#22 ∧ decode 0x0C0000#22 = .ok .addAb := by decide
theorem witness_RejectedCellIsInvalidOperand : Fetches wBad 0x3E0007#22 ∧
    decode 0x3E0007#22 = .error (.operandForbidden ⟨15#4, some 7⟩) := by decide
theorem witness_AdvanceWrapsAtTheLastCell : (4 : Nat) < 5 ∧ 4 = 5 - 1 ∧ (3 : Nat) < 5 ∧ 3 ≠ 5 - 1 := by
  decide
theorem witness_PcAfterACycle :
    (Fetches wJump 0x160005#22 ∧ step wJump = .next { wJump with pc := 5 } ∧
      decode 0x160005#22 = .ok (.jump 5) ∧ takenTarget (.jump 5) wJump = some 5 ∧
      (0 : Int) ≤ 5 ∧ (5 : Int) < wJump.mem.size) ∧
    (Fetches wAdd 0x0C0000#22 ∧ fieldsOf (step wAdd) ≠ none ∧ takenTarget .addAb wAdd = none) :=
  ⟨⟨by decide, rfl, by decide, rfl, by decide, by decide⟩, by decide, by decide, rfl⟩
theorem witness_StepIsTheWholeStepFunction : Fetches wJump 0x160005#22 := by decide

/-- The two operand forms of each opcode that forbids one: NO_OP, SWAP_AB, SWAP_AC, ADD_AB, SUB_AB,
INC_A, CMP_AB, HALT; one pair of words for each. -/
theorem witness_TakesNoOperand :
    ∀ opc ∈ [0#4, 3#4, 4#4, 9#4, 10#4, 11#4, 12#4, 15#4],
      (∃ w, Fetches (cellAt 1 2 3 true true 4 8 w) w ∧ opcField w = opc ∧ operandOf w = none) ∧
      (∃ w, Fetches (cellAt 1 2 3 true true 4 8 w) w ∧ opcField w = opc ∧ operandOf w = some 7) := by
  intro opc h
  exact ⟨⟨encodeCell ⟨opc, none⟩, by revert opc; decide⟩,
    ⟨encodeCell ⟨opc, some 7⟩, by revert opc; decide⟩⟩
/-- The three operand forms of each load. -/
theorem witness_TakesValue : ∀ opc ∈ [1#4, 2#4],
    (∃ w, Fetches (cellAt 1 2 3 true true 4 8 w) w ∧ opcField w = opc ∧ operandOf w = none) ∧
    (∃ w, Fetches (cellAt 1 2 3 true true 4 8 w) w ∧ opcField w = opc ∧ operandOf w = some (-65536)) ∧
    (∃ w, Fetches (cellAt 1 2 3 true true 4 8 w) w ∧ opcField w = opc ∧
      operandOf w = some (-65535)) := by
  intro opc h
  exact ⟨⟨encodeCell ⟨opc, none⟩, by revert opc; decide⟩,
    ⟨encodeCell ⟨opc, some (-65536)⟩, by revert opc; decide⟩,
    ⟨encodeCell ⟨opc, some (-65535)⟩, by revert opc; decide⟩⟩
/-- The two operand forms of each jump. -/
theorem witness_TakesTarget : ∀ opc ∈ [5#4, 6#4, 7#4, 8#4],
    (∃ w, Fetches (cellAt 1 2 3 true true 4 8 w) w ∧ opcField w = opc ∧ operandOf w = none) ∧
    (∃ w, Fetches (cellAt 1 2 3 true true 4 8 w) w ∧ opcField w = opc ∧
      operandOf w = some (-65536)) := by
  intro opc h
  exact ⟨⟨encodeCell ⟨opc, none⟩, by revert opc; decide⟩,
    ⟨encodeCell ⟨opc, some (-65536)⟩, by revert opc; decide⟩⟩

theorem witness_LoadAiWritesA : -65535 ≤ (-65535 : Int) ∧ (-65535 : Int) ≤ 65535 := by decide
theorem witness_LoadBiWritesB : -65535 ≤ (65535 : Int) ∧ (65535 : Int) ≤ 65535 := by decide
theorem witness_SwapAbExchangesAAndB : ∃ s1 s2,
    exec .swapAb (cellAt 7 12 (-5) true true 2 6 0x240000#22) = .next s1 ∧ exec .swapAb s1 = .next s2 :=
  ⟨_, _, rfl, rfl⟩
/-- Each side of the ALU's range at its boundary: 65535 fits, 65536 does not. -/
theorem witness_AddAbWritesCAndZero :
    (-65536 < (32768 : Int) + 32767 ∧ (32768 : Int) + 32767 < 65536) ∧
    ¬(-65536 < (-65535 : Int) + -1 ∧ (-65535 : Int) + -1 < 65536) := by decide
theorem witness_SubAbWritesCAndBothFlags :
    (-65536 < (0 : Int) - 65535 ∧ (0 : Int) - 65535 < 65536) ∧
    ¬(-65536 < (65535 : Int) - -1 ∧ (65535 : Int) - -1 < 65536) := by decide
theorem witness_IncAWritesAWithoutFlags :
    (-65536 < (65534 : Int) + 1 ∧ (65534 : Int) + 1 < 65536) ∧
    ¬(-65536 < (65535 : Int) + 1 ∧ (65535 : Int) + 1 < 65536) := by decide
theorem witness_CmpAbWritesOnlyTheFlags :
    (-65536 < (-32768 : Int) - 32767 ∧ (-32768 : Int) - 32767 < 65536) ∧
    ¬(-65536 < (-1 : Int) - 65535 ∧ (-1 : Int) - 65535 < 65536) := by decide
/-- The targets 0 and SIZE-1 are in the image, -1 and SIZE are not; pc + 1 < SIZE. -/
theorem witness_JumpSetsThePc :
    ((0 : Int) ≤ 0 ∧ (0 : Int) < wJump.mem.size) ∧ ((0 : Int) ≤ 5 ∧ (5 : Int) < wJump.mem.size) ∧
    (-1 : Int) < 0 ∧ (6 : Int) ≥ wJump.mem.size ∧ wJump.pc + 1 < wJump.mem.size ∧
    -65536 ≤ (-65536 : Int) ∧ (-65536 : Int) ≤ 65535 := by decide
theorem witness_JumpEqIsTakenIffZero :
    (cellAt 0 0 0 true false 2 6 0x1A0004#22).zero = true ∧
    (cellAt 0 0 0 false false 2 6 0x1A0004#22).zero = false ∧ (0 : Int) ≤ 5 ∧
    (5 : Int) < (cellAt 0 0 0 true false 2 6 0x1A0004#22).mem.size ∧
    (6 : Int) ≥ (cellAt 0 0 0 true false 2 6 0x1A0004#22).mem.size := by decide
theorem witness_JumpGtIsTakenIffNeitherFlag :
    ((cellAt 0 0 0 false false 2 6 0x1E0004#22).zero = false ∧
      (cellAt 0 0 0 false false 2 6 0x1E0004#22).negative = false) ∧
    (cellAt 0 0 0 false true 2 6 0x1E0004#22).negative = true ∧ (0 : Int) ≤ 5 ∧
    (5 : Int) < (cellAt 0 0 0 false false 2 6 0x1E0004#22).mem.size ∧
    (6 : Int) ≥ (cellAt 0 0 0 false false 2 6 0x1E0004#22).mem.size := by decide
theorem witness_JumpGtAfterCompare : ∃ s', -65536 < (65535 : Int) - 0 ∧ (65535 : Int) - 0 < 65536 ∧
    exec .cmpAb (cellAt 65535 0 0 false true 2 6 0x300000#22) = .next s' :=
  ⟨_, by decide, by decide, rfl⟩
theorem witness_JumpLtIsTakenIffOnlyNegative :
    ((cellAt 0 0 0 false true 2 6 0x220004#22).zero = false ∧
      (cellAt 0 0 0 false true 2 6 0x220004#22).negative = true) ∧
    (cellAt 0 0 0 true true 2 6 0x220004#22).zero = true ∧ (0 : Int) ≤ 5 ∧
    (5 : Int) < (cellAt 0 0 0 false true 2 6 0x220004#22).mem.size ∧
    (6 : Int) ≥ (cellAt 0 0 0 false true 2 6 0x220004#22).mem.size := by decide
theorem witness_JumpLtAfterCompare : ∃ s', -65536 < (0 : Int) - 65535 ∧ (0 : Int) - 65535 < 65536 ∧
    exec .subAb (cellAt 0 65535 0 false false 2 6 0x100000#22) = .next s' :=
  ⟨_, by decide, by decide, rfl⟩
theorem witness_HaltSetsHalted : ∃ s', exec .halt (cellAt 0 0 0 true true 5 6 0x3C0000#22) = .next s' ∧
    (cellAt 0 0 0 true true 5 6 0x3C0000#22).pc = (cellAt 0 0 0 true true 5 6 0x3C0000#22).mem.size - 1 ∧
    (cellAt 0 0 0 true true 5 6 0x3C0000#22).err.cause = .none :=
  ⟨_, rfl, rfl, rfl⟩
theorem witness_ReservedSlotsAreInvalidOpcode :
    (Fetches (cellAt 0 0 0 true true 2 6 0x360001#22) 0x360001#22 ∧ opcField 0x360001#22 = 13#4) ∧
    (Fetches (cellAt 0 0 0 true true 2 6 0x380000#22) 0x380000#22 ∧ opcField 0x380000#22 = 14#4) := by
  decide

theorem witness_OverflowChangesOnlyThePc :
    ¬(-65536 < (65535 : Int) + 1 ∧ (65535 : Int) + 1 < 65536) ∧
    ¬(-65536 < (65535 : Int) - -1 ∧ (65535 : Int) - -1 < 65536) ∧
    Fetches (cellAt 65535 1 9 false true 4 8 0x0C0000#22) 0x0C0000#22 ∧
    .overflow 3#4 ∈ cycleEvents (cellAt 65535 1 9 false true 4 8 0x0C0000#22) := by decide
theorem witness_AluLawsOnRegisterValues : fitsW 65535 = true ∧ fitsW (-65535) = true := by decide
theorem witness_CompareDecidesTheOrder :
    -65536 < (-32768 : Int) - 32767 ∧ (-32768 : Int) - 32767 < 65536 := by decide

/-- A step that changes A, B, C and the flags each, for the frame statements. -/
theorem witness_RegistersChangeOnlyByTheirWriters :
    (Fetches (cellAt 1 2 3 true true 4 8 0x240000#22) 0x240000#22 ∧
      fieldsOf (step (cellAt 1 2 3 true true 4 8 0x240000#22)) =
        some ([2, 1, 3], [true, true, false], 5)) ∧
    (Fetches wAdd 0x0C0000#22 ∧ fieldsOf (step wAdd) = some ([3, 4, 7], [false, true, false], 3)) := by
  decide
theorem witness_FlagsChangeOnlyByAddAndSubtract :
    Fetches (cellAt 7 12 9 true false 4 8 0x100000#22) 0x100000#22 ∧
    fieldsOf (step (cellAt 7 12 9 true false 4 8 0x100000#22)) =
      some ([7, 12, -5], [false, true, false], 5) := by decide
theorem witness_NoRunWritesTheImage : ∃ s', core.run 2 wAdd = .next s' := ⟨_, rfl⟩
theorem witness_OnlySwapAcReadsC : Instr.addAb ≠ .swapAc := by decide

theorem witness_FatalStopIsPrecise : ∃ s', Fetches wBad 0x3E0007#22 ∧ wBad.err.cause = .none ∧
    step wBad = .next s' ∧ s'.err.cause ≠ .none :=
  ⟨_, by decide, rfl, rfl, by decide⟩
theorem witness_CauseOfAFatalStop : ∃ s', Fetches wJump 0x160005#22 ∧ wJump.err.cause = .none ∧
    step wJump = .next s' :=
  ⟨_, by decide, rfl, rfl⟩
theorem witness_BlockStopsOnlyByHaltOrFatalError : ∃ s',
    Fetches (cellAt 0 0 0 true true 5 6 0x3C0000#22) 0x3C0000#22 ∧
    (cellAt 0 0 0 true true 5 6 0x3C0000#22).err.cause = .none ∧
    step (cellAt 0 0 0 true true 5 6 0x3C0000#22) = .next s' :=
  ⟨_, by decide, rfl, rfl⟩
theorem witness_HaltedIsTerminal : ({ wAdd with halted := true } : State).halted = true := rfl

theorem witness_ResetMeetsTheInvariant :
    fitsW 65535 = true ∧ fitsW (-65535) = true ∧ (imageOf [0x060005#22]).wf ∧
    1 ≤ (imageOf [0x060005#22]).size ∧ (imageOf [0x060005#22]).size ≤ 2 ^ 16 := by decide

theorem wAdd_inv : StateInv wAdd :=
  ⟨by decide, by decide, by decide, by decide, by decide, fun h => absurd rfl h,
    ⟨fun _ => rfl, by decide, rfl⟩, by decide⟩

theorem witness_StepKeepsTheInvariant : StateInv wAdd ∧ ∃ s', step wAdd = .next s' :=
  ⟨wAdd_inv, _, rfl⟩
theorem witness_RunNeverFaults : StateInv wAdd := wAdd_inv
theorem witness_PortsShowTheState : StateInv wAdd ∧ (statusPorts wAdd).errP = false :=
  ⟨wAdd_inv, rfl⟩
theorem witness_JumpToSelfNeverHalts : Fetches (cellAt 0 0 0 true true 2 6 0x160002#22) 0x160002#22 ∧
    decode 0x160002#22 = .ok (.jump (cellAt 0 0 0 true true 2 6 0x160002#22).pc) := by decide
/-- ADD_AB at 2, HALT everywhere after it. -/
theorem witness_StraightLineRunHalts : StateInv wAdd ∧ wAdd.halted = false ∧
    wAdd.mem.read (wAdd.mem.size - 1) = some (encode .halt) ∧
    ∀ k w i, wAdd.pc ≤ k → wAdd.mem.read k = some w → decode w = .ok i → isJumpInstr i = false := by
  refine ⟨wAdd_inv, rfl, by decide, fun k w i hk hr hd => ?_⟩
  have hlt : k < 6 := read_some_lt hr
  have h2 : 2 ≤ k := hk
  have hall : ∀ k < 6, 2 ≤ k → ∀ w, wAdd.mem.read k = some w → w = 0x0C0000#22 ∨ w = 0x3C0000#22 := by
    intro k hlt h2 w hw
    have : wAdd.mem.read k = some (if 2 = k then 0x0C0000#22 else 0x3C0000#22) := by
      rw [read_of_lt hlt]
      rfl
    rw [this] at hw
    split at hw <;> cases hw <;> simp
  rcases hall k hlt h2 w hr with rfl | rfl
  · cases hd.symm.trans (by decide : decode 0x0C0000#22 = .ok .addAb)
    rfl
  · cases hd.symm.trans (by decide : decode 0x3C0000#22 = .ok .halt)
    rfl
/-- ADD_AB at 4, the appended HALT at 5. -/
theorem witness_StraightLineRunReachesTheAppendedHalt :
    StateInv (cellAt 3 4 9 true true 4 6 0x0C0000#22) ∧
    (cellAt 3 4 9 true true 4 6 0x0C0000#22).halted = false ∧
    (cellAt 3 4 9 true true 4 6 0x0C0000#22).mem.read 5 = some (encode .halt) ∧
    (∀ k w, 4 ≤ k → k < 5 → (cellAt 3 4 9 true true 4 6 0x0C0000#22).mem.read k = some w →
      ∃ i, decode w = .ok i ∧ isJumpInstr i = false ∧ i ≠ .halt ∧
        opcField w ≠ 13#4 ∧ opcField w ≠ 14#4) := by
  refine ⟨⟨by decide, by decide, by decide, by decide, by decide, fun h => absurd rfl h,
    ⟨fun _ => rfl, by decide, rfl⟩, by decide⟩, rfl, by decide, fun k w h4 h5 hr => ?_⟩
  obtain rfl : k = 4 := by omega
  cases hr
  exact ⟨.addAb, by decide, rfl, by decide, by decide, by decide⟩
theorem witness_ClockEdgeRules : Fetches wAdd 0x0C0000#22 ∧
    ({ wAdd with halted := true } : State).halted = true := by decide
theorem witness_FetchEventComesFirst : Fetches wBad 0x3E0007#22 := by decide
theorem witness_ExecuteEventsOfTheInstructions :
    (-65536 < (3 : Int) + 4 ∧ (3 : Int) + 4 < 65536) ∧ (-65536 < (3 : Int) - 4 ∧ (3 : Int) - 4 < 65536) ∧
    (Fetches wAdd 0x0C0000#22 ∧ decode 0x0C0000#22 = .ok .addAb) ∧
    (takenTarget (.jump 5) wJump = some 5 ∧ (0 : Int) ≤ 5 ∧ (5 : Int) < wJump.mem.size) ∧
    isJumpInstr (.jumpEq 4) = true ∧
    takenTarget (.jumpEq 4) (cellAt 0 0 0 false false 2 6 0x1A0004#22) = none := by decide
theorem witness_ErrorEventTellsTheLatch : ∃ s', Fetches wBad 0x3E0007#22 ∧ wBad.err.cause = .none ∧
    step wBad = .next s' ∧ .error .invalidOperand 2 15#4 (some 7) ∈ cycleEvents wBad ∧
    s'.err.cause ≠ .none :=
  ⟨_, by decide, rfl, rfl, by decide, by decide⟩
theorem witness_TraceReplaysToTheFinalState : ∃ s', core.run 2 wAdd = .next s' := ⟨_, rfl⟩
theorem witness_TraceOutputsRenderTheEvents : wAdd.mem.read wAdd.pc = some 0x0C0000#22 ∧
    StateInv wAdd ∧ Fetches wAdd 0x0C0000#22 ∧
    ∃ p, tracePorts false true wAdd = some p ∧ p.trWrC = true :=
  ⟨by decide, wAdd_inv, by decide, _, rfl, rfl⟩
theorem witness_TraceOutputsOfAStop :
    ∃ p, tracePorts false true wBad = some p ∧ p.trP = true ∧ p.trErr = true := ⟨_, rfl, rfl, rfl⟩
theorem witness_AddressWidthIsLeast : (1 : Nat) ≤ 3 ∧ 1 ≤ 2 ∧ 3 ≤ 2 ^ 2 := by decide
theorem witness_AssemblerLineGivesItsCell : ("LOAD_AI", 1#4, .loadAi 0) ∈ namedRows ∧
    Blanks ['\t'] ∧ Blanks [' ', ' '] ∧ [' ', ' '] ≠ [] ∧ Blanks [] ∧
    IsToken "-3".toList ∧ operandToken "-3".toList = .ok (some (-3)) ∧
    IsToken "Halt".toList ∧ ∀ row ∈ namedRows, "Halt".toList ≠ row.1.toList :=
  ⟨by simp [namedRows], by simp [Blanks], by simp [Blanks], by simp, by simp [Blanks],
    by simp [IsToken], by rfl, by simp [IsToken], by simp [namedRows]⟩
/-- The operand field's bounds: 65535 and -65536 fit, 65536 and -65537 do not; and a token that is no
operand. -/
theorem witness_OperandTokensDenoteTheirIntegers :
    (IsDigits "65535".toList ∧ decimalValue "65535".toList ≤ 65535) ∧
    (IsDigits "65536".toList ∧ 65535 < decimalValue "65536".toList ∧
      decimalValue "65536".toList ≤ 65536) ∧
    (IsDigits "65537".toList ∧ 65536 < decimalValue "65537".toList) ∧
    ("x".toList ≠ "None".toList ∧ ¬IsDigits "x".toList ∧
      ∀ digits, IsDigits digits → "x".toList ≠ '-' :: digits) := by
  simp [IsDigits, decimalValue, Nat.ofDigits]
theorem witness_AssembledCellsSurviveEncoding :
    parseFiles ["JUMP 1\nHALT".toList] = .ok [⟨5#4, some 1⟩, ⟨15#4, none⟩] ∧
    (⟨5#4, some 1⟩ : Cell) ∈ [(⟨5#4, some 1⟩ : Cell), ⟨15#4, none⟩] := by decide

end Sys2Proof.Tests
end

section
/-! The pc's advance (R26): one equation per branch, and the obligation about it. -/

namespace Sys2Proof.Machine

@[simp] theorem advance_last (size : Nat) : advance size (size - 1) = 0 := if_pos rfl

theorem advance_of_ne_last {size p : Nat} (h : p ≠ size - 1) : advance size p = p + 1 := if_neg h

/-- Settles O10, from the two branches of R26's formula and `advance_lt`; in an image of one cell the
only address is the last one. -/
theorem advanceWrapsAtTheLastCell : Obligations.AdvanceWrapsAtTheLastCell := by
  intro size p hp
  refine ⟨?wraps, advance_of_ne_last, advance_lt hp, advance_last 1⟩
  case wraps =>
    rintro rfl
    exact advance_last size

end Sys2Proof.Machine
end

section
/-! The reserved slots (R66): their meaning, the step that fetches one, their absence from the mnemonic
table, and the obligation about them. -/

namespace Sys2Proof.Machine

theorem exec_reserved13 (opd : Option Int) (s : State) :
    exec (.reserved13 opd) s = .next (stopped .invalidOpcode 13#4 opd s) :=
  congrArg Host.Outcome.next (raiseFatal_eq_stopped .invalidOpcode ⟨13#4, opd⟩ s)

theorem exec_reserved14 (opd : Option Int) (s : State) :
    exec (.reserved14 opd) s = .next (stopped .invalidOpcode 14#4 opd s) :=
  congrArg Host.Outcome.next (raiseFatal_eq_stopped .invalidOpcode ⟨14#4, opd⟩ s)

theorem decode_of_opcField_13 {w : CellWord} (h : opcField w = 13#4) :
    decode w = .ok (.reserved13 (operandOf w)) := by
  obtain ⟨-, -, -, -, -, -, -, -, -, -, -, -, -, slot13, -, -⟩ := classify_slots (decodeCell w)
  exact slot13 h

theorem decode_of_opcField_14 {w : CellWord} (h : opcField w = 14#4) :
    decode w = .ok (.reserved14 (operandOf w)) := by
  obtain ⟨-, -, -, -, -, -, -, -, -, -, -, -, -, -, slot14, -⟩ := classify_slots (decodeCell w)
  exact slot14 h

/-- R84, R86: the Cycle of a word that decodes is the meaning of its instruction. -/
theorem step_of_decode {s : State} {w : CellWord} {i : Instr} (hf : Fetches s w)
    (hd : decode w = .ok i) : step s = exec i s :=
  (step_of_fetches hf).trans (runWord_of_ok hd s)

/-- R66, R84: the opcode check comes first, so the operand of the fetched cell does not matter. -/
theorem step_of_reserved {s : State} {w : CellWord} (hf : Fetches s w)
    (h : opcField w = 13#4 ∨ opcField w = 14#4) :
    step s = .next (stopped .invalidOpcode (opcField w) (operandOf w) s) := by
  rcases h with h13 | h14
  · rw [step_of_decode hf (decode_of_opcField_13 h13), exec_reserved13, h13]
  · rw [step_of_decode hf (decode_of_opcField_14 h14), exec_reserved14, h14]

/-- R64: the index of a token is not one that the mnemonic table leaves out. -/
theorem opcodeOf_ne_of_not_mem {opc : OpIndex} (h : opc ∉ mnemonicTable.map Prod.snd)
    (token : List Char) : opcodeOf token ≠ some opc :=
  fun htoken => h (opcodeOf_mem htoken)

/-- Settles O27: a fetched cell of slot 13 or 14 decodes to its slot with any operand, and the slot's
meaning is the stop; the mnemonic table has no row with index 13 or 14. -/
theorem reservedSlotsAreInvalidOpcode : Obligations.ReservedSlotsAreInvalidOpcode := by
  refine ⟨exec_reserved13, exec_reserved14, fun _ _ => step_of_reserved, fun token => ⟨?no13, ?no14⟩⟩
  case no13 => exact opcodeOf_ne_of_not_mem (by decide) token
  case no14 => exact opcodeOf_ne_of_not_mem (by decide) token

end Sys2Proof.Machine
end

section
/-! The pc after a Cycle (R27, R83): a jump is `jumpIf` on its own condition, every other instruction
keeps the advanced pc, and the obligation that puts the two together with the rejected cells. -/

namespace Sys2Proof.Machine

theorem jumpIf_pc_of_taken {t : Int} {s : State} (ht : 0 ≤ t ∧ t < s.mem.size) (opc : OpIndex) :
    (jumpIf true opc t s).pc = t.toNat :=
  congrArg State.pc (setPc_valid ht opc)

/-- R131, R168: the advanced pc stays if the condition is false, and if the target is outside the
image. -/
theorem jumpIf_pc_of_not_taken {cond : Bool} {t : Int} {s : State}
    (h : cond = true → ¬(0 ≤ t ∧ t < s.mem.size)) (opc : OpIndex) :
    (jumpIf cond opc t s).pc = advance s.mem.size s.pc := by
  rcases jumpIf_cases cond opc t s with ⟨-, hs⟩ | ⟨hc, ht, -⟩ | ⟨-, -, hs⟩
  · rw [hs]; rfl
  · exact absurd ht (h hc)
  · rw [hs]; rfl

/-- R132 to R135: the four jumps differ in their condition and opcode only, and `takenTarget` reads the
same condition. -/
theorem exec_of_jump {i : Instr} (hj : isJumpInstr i = true) (s : State) :
    ∃ cond opc t, exec i s = .next (jumpIf cond opc t s) ∧
      takenTarget i s = if cond then some t else none := by
  cases i with
  | jump t => exact ⟨true, 5#4, t, rfl, rfl⟩
  | jumpEq t => exact ⟨condEq s, 6#4, t, rfl, rfl⟩
  | jumpGt t => exact ⟨condGt s, 7#4, t, rfl, rfl⟩
  | jumpLt t => exact ⟨condLt s, 8#4, t, rfl, rfl⟩
  | noOp | loadAi | loadBi | addAb | subAb | swapAb | swapAc | incA | cmpAb | reserved13 | reserved14
  | halt => nomatch hj

theorem takenTarget_of_not_jump {i : Instr} (hj : isJumpInstr i = false) (s : State) :
    takenTarget i s = none := by
  cases i with
  | jump | jumpEq | jumpGt | jumpLt => nomatch hj
  | noOp | loadAi | loadBi | addAb | subAb | swapAb | swapAc | incA | cmpAb | reserved13 | reserved14
  | halt => rfl

/-- R82, R83: an instruction that is no jump keeps the advanced pc, an ALU instruction with either
result, HALT and the reserved slots included. -/
theorem exec_pc_of_not_jump {i : Instr} (hj : isJumpInstr i = false) (s : State) :
    ∃ s', exec i s = .next s' ∧ s'.pc = advance s.mem.size s.pc := by
  cases i with
  | jump | jumpEq | jumpGt | jumpLt => nomatch hj
  | addAb | subAb | incA | cmpAb =>
    simp only [exec, execAddAb, execSubAb, execIncA, execCmpAb]
    split <;> exact ⟨_, rfl, rfl⟩
  | noOp | loadAi | loadBi | swapAb | swapAc | reserved13 | reserved14 | halt => exact ⟨_, rfl, rfl⟩

/-- R83: the pc after the Cycle of an instruction. -/
theorem exec_pc (i : Instr) (s : State) :
    ∃ s', exec i s = .next s' ∧
      (∀ t, takenTarget i s = some t → 0 ≤ t ∧ t < s.mem.size → s'.pc = t.toNat) ∧
      ((∀ t, takenTarget i s = some t → ¬(0 ≤ t ∧ t < s.mem.size)) →
        s'.pc = advance s.mem.size s.pc) := by
  cases hj : isJumpInstr i with
  | false =>
    obtain ⟨s', hs', hpc⟩ := exec_pc_of_not_jump hj s
    exact ⟨s', hs', by simp [takenTarget_of_not_jump hj], fun _ => hpc⟩
  | true =>
    obtain ⟨cond, opc, t, hs', htarget⟩ := exec_of_jump hj s
    refine ⟨_, hs', fun v hv hin => ?taken, fun h => jumpIf_pc_of_not_taken (fun hc => ?out) opc⟩
    case taken =>
      obtain ⟨rfl, rfl⟩ : cond = true ∧ t = v := by simpa [htarget] using hv
      exact jumpIf_pc_of_taken hin opc
    case out => exact h t (by rw [htarget, if_pos hc])

/-- Settles O11: a word that decodes moves the pc as its instruction does, and a rejected cell is a
fatal stop, which keeps the advanced pc. -/
theorem pcAfterACycle : Obligations.PcAfterACycle := by
  intro s w s' hf hstep
  cases hd : decode w with
  | ok i =>
    obtain ⟨s₁, hexec, htaken, hadvance⟩ := exec_pc i s
    obtain rfl : s₁ = s' := by simpa [step_of_decode hf hd, hexec] using hstep
    refine ⟨?_, fun h => hadvance fun t => h i t rfl⟩
    rintro _ t ⟨⟩ ht hlow hhigh
    exact htaken t ht ⟨hlow, hhigh⟩
  | error e =>
    obtain rfl : raiseFatal .invalidOperand e.cell s = s' := by
      simpa [step_of_fetches hf, runWord_of_error hd] using hstep
    exact ⟨nofun, fun _ => raiseFatal_pc ..⟩

end Sys2Proof.Machine
end

section
/-! The operand forms (R67, R68, R85): the Cycle of a cell the decoder rejects, and the "Exceptions" line
of an opcode, read off the decoder's slot for it. -/

namespace Sys2Proof.Machine

/-- R85, R165, R168: the stop records the fetched cell's own opcode and operand. -/
theorem step_of_decode_error {s : State} {w : CellWord} {e : DecodeError} (hf : Fetches s w)
    (hd : decode w = .error e) :
    step s = .next (stopped .invalidOperand (opcField w) (operandOf w) s) := by
  rw [step_of_fetches hf, runWord_of_error hd, cell_of_decode_error hd, raiseFatal_eq_stopped,
    decodeCell_opc, decodeCell_opd]

/-- R67: an opcode whose slot forbids an operand. -/
theorem takesNoOperand_of_slot {opc : OpIndex} {i : Instr}
    (hslot : ∀ c : Cell, c.opc = opc → classify c = forbidOperand c i) : TakesNoOperand opc i := by
  rintro s w hf rfl
  have hdecode : decode w = forbidOperand (decodeCell w) i := hslot (decodeCell w) rfl
  refine ⟨fun habsent => ?runs, fun v hpresent => ?stops⟩
  case runs => exact step_of_decode hf (hdecode.trans (forbidOperand_none habsent i))
  case stops =>
    rw [step_of_decode_error hf (hdecode.trans (forbidOperand_some hpresent i)), hpresent]

/-- R62, R68: of the values an operand field can hold, -65536 is the only one outside `D_W`. -/
theorem fitsW_of_operandOf {w : CellWord} {v : Int} (h : operandOf w = some v) (hv : v ≠ -65536) :
    fitsW v = true := by
  have hrange : operandEncodable v = true := by simpa [h, optEncodable] using operandOf_encodable w
  rw [operandEncodable_iff] at hrange
  rw [fitsW_iff]
  omega

/-- R67, R68: an opcode whose slot requires an operand of `D_W`. -/
theorem takesValue_of_slot {opc : OpIndex} {make : Int → Instr}
    (hslot : ∀ c : Cell, c.opc = opc → classify c = requireValue c make) : TakesValue opc make := by
  rintro s w hf rfl
  have hdecode : decode w = requireValue (decodeCell w) make := hslot (decodeCell w) rfl
  refine ⟨fun habsent => ?missing, fun hunfit => ?unfit, fun v hpresent hv => ?runs⟩
  case missing =>
    rw [step_of_decode_error hf (hdecode.trans (requireValue_none habsent make)), habsent]
  case unfit =>
    rw [step_of_decode_error hf (hdecode.trans (requireValue_unfit hunfit (by decide) make)), hunfit]
  case runs =>
    have hfits : fitsW v = true := fitsW_of_operandOf hpresent hv
    exact step_of_decode hf (hdecode.trans (requireValue_some hpresent hfits make))

end Sys2Proof.Machine
end

section
/-! Data movement (R111 to R113): the word of a cell with an operand, the effect of the two loads and of
SWAP_AB, and the obligations about them. -/

namespace Sys2Proof.Machine

/-- R61, R70: `(opc << 18) | (1 << 17) | (v mod 2^17)`. -/
theorem encodeCell_some_toNat (opc : OpIndex) (v : Int) :
    (encodeCell ⟨opc, some v⟩).toNat = opc.toNat * 2 ^ 18 + 2 ^ 17 + (v % 2 ^ 17).toNat := by
  simp [encodeCell_toNat, encodeOperand, BitVec.toNat_ofInt]

theorem exec_loadAi (v : Int) (s : State) : exec (.loadAi v) s = .next { afterFetch s with a := v } :=
  rfl

theorem exec_loadBi (v : Int) (s : State) : exec (.loadBi v) s = .next { afterFetch s with b := v } :=
  rfl

theorem exec_swapAb (s : State) : exec .swapAb s = .next { afterFetch s with a := s.b, b := s.a } := rfl

theorem takesValue_loadAi : TakesValue 1#4 .loadAi := by
  refine takesValue_of_slot fun c => ?_
  obtain ⟨-, slot1, -⟩ := classify_slots c
  exact slot1

theorem takesValue_loadBi : TakesValue 2#4 .loadBi := by
  refine takesValue_of_slot fun c => ?_
  obtain ⟨-, -, slot2, -⟩ := classify_slots c
  exact slot2

theorem takesNoOperand_swapAb : TakesNoOperand 9#4 .swapAb := by
  refine takesNoOperand_of_slot fun c => ?_
  obtain ⟨-, -, -, -, -, -, -, -, -, slot9, -⟩ := classify_slots c
  exact slot9

/-- R113: the second exchange undoes the first, so the two Cycles leave what two fetches leave. -/
theorem swapAb_swapAb {s s1 s2 : State} (h1 : exec .swapAb s = .next s1)
    (h2 : exec .swapAb s1 = .next s2) : s2 = afterFetch (afterFetch s) := by
  rw [exec_swapAb] at h1 h2
  obtain rfl := Host.Outcome.next.inj h1
  exact (Host.Outcome.next.inj h2).symm

/-- Settles O14: the word is that of the cell with opcode 1 and operand `v`, the effect is `exec`'s, and
slot 1 of the decoder requires an operand of `D_W`. -/
theorem loadAiWritesA : Obligations.LoadAiWritesA :=
  ⟨fun v _ _ => encodeCell_some_toNat 1#4 v, fun v s _ _ => exec_loadAi v s, takesValue_loadAi⟩

/-- Settles O15: as for LOAD_AI, with B and slot 2. -/
theorem loadBiWritesB : Obligations.LoadBiWritesB :=
  ⟨fun v _ _ => encodeCell_some_toNat 2#4 v, fun v s _ _ => exec_loadBi v s, takesValue_loadBi⟩

/-- Settles O16: the exchange is its own inverse on the registers, and slot 9 of the decoder forbids an
operand. -/
theorem swapAbExchangesAAndB : Obligations.SwapAbExchangesAAndB := by
  refine ⟨by decide, exec_swapAb, fun s s1 s2 h1 h2 => ?twice, takesNoOperand_swapAb⟩
  case twice =>
    obtain rfl := swapAb_swapAb h1 h2
    rfl

end Sys2Proof.Machine
end

section
/-! Arithmetic (R121 to R123): the two results of the ALU by the range of the exact value, the effect of
ADD_AB, SUB_AB and INC_A for each result, and the obligations about them. -/

namespace Sys2Proof.Machine

/-- R100, R101: the result is `ok` exactly when the exact value has a magnitude below 2^16, so an outcome
that is known for each of the two results is known by that range. -/
theorem outcome_of_aluResult {x : Int} {outcome : Host.Outcome State Fault Refusal} {written kept : State}
    (hok : aluResult x = .ok x → outcome = .next written)
    (hoverflow : aluResult x = .overflow → outcome = .next kept) :
    outcome = .next (if -65536 < x ∧ x < 65536 then written else kept) := by
  split
  case isTrue hfits => exact hok (aluResult_fits (by omega))
  case isFalse hunfit => exact hoverflow (aluResult_overflow (by omega))

theorem exec_addAb_of_ok {s : State} {r : Int} (h : aluAdd s.a s.b = .ok r) :
    exec .addAb s = .next { afterFetch s with c := r, zero := decide (r = 0) } := by
  simp only [exec, execAddAb, getReg_A, getReg_B, h]
  rfl

theorem exec_addAb_of_overflow {s : State} (h : aluAdd s.a s.b = .overflow) :
    exec .addAb s = .next (afterFetch s) := by
  simp only [exec, execAddAb, getReg_A, getReg_B, h, advancePc_eq_afterFetch]

theorem exec_subAb_of_ok {s : State} {r : Int} (h : aluSubtract s.a s.b = .ok r) :
    exec .subAb s =
      .next { afterFetch s with c := r, zero := decide (r = 0), negative := decide (r < 0) } := by
  simp only [exec, execSubAb, getReg_A, getReg_B, h]
  rfl

theorem exec_subAb_of_overflow {s : State} (h : aluSubtract s.a s.b = .overflow) :
    exec .subAb s = .next (afterFetch s) := by
  simp only [exec, execSubAb, getReg_A, getReg_B, h, advancePc_eq_afterFetch]

theorem exec_incA_of_ok {s : State} {r : Int} (h : aluIncrement s.a = .ok r) :
    exec .incA s = .next { afterFetch s with a := r } := by
  simp only [exec, execIncA, getReg_A, h]
  rfl

theorem exec_incA_of_overflow {s : State} (h : aluIncrement s.a = .overflow) :
    exec .incA s = .next (afterFetch s) := by
  simp only [exec, execIncA, getReg_A, h, advancePc_eq_afterFetch]

theorem takesNoOperand_addAb : TakesNoOperand 3#4 .addAb := by
  refine takesNoOperand_of_slot fun c => ?_
  obtain ⟨-, -, -, slot3, -⟩ := classify_slots c
  exact slot3

theorem takesNoOperand_subAb : TakesNoOperand 4#4 .subAb := by
  refine takesNoOperand_of_slot fun c => ?_
  obtain ⟨-, -, -, -, slot4, -⟩ := classify_slots c
  exact slot4

theorem takesNoOperand_incA : TakesNoOperand 11#4 .incA := by
  refine takesNoOperand_of_slot fun c => ?_
  obtain ⟨-, -, -, -, -, -, -, -, -, -, -, slot11, -⟩ := classify_slots c
  exact slot11

/-- Settles O18: the effect for each result of `add`, chosen by the range of A + B, and slot 3 of the
decoder forbids an operand. -/
theorem addAbWritesCAndZero : Obligations.AddAbWritesCAndZero :=
  ⟨by decide, fun _ => outcome_of_aluResult exec_addAb_of_ok exec_addAb_of_overflow,
    takesNoOperand_addAb⟩

/-- Settles O19: as for ADD_AB, with `subtract`, the range of A - B and slot 4. -/
theorem subAbWritesCAndBothFlags : Obligations.SubAbWritesCAndBothFlags :=
  ⟨by decide, fun _ => outcome_of_aluResult exec_subAb_of_ok exec_subAb_of_overflow,
    takesNoOperand_subAb⟩

/-- Settles O20: as for ADD_AB, with `increment`, the range of A + 1 and slot 11. -/
theorem incAWritesAWithoutFlags : Obligations.IncAWritesAWithoutFlags :=
  ⟨by decide, fun _ => outcome_of_aluResult exec_incA_of_ok exec_incA_of_overflow,
    takesNoOperand_incA⟩

end Sys2Proof.Machine
end

section
/-! Control flow (R132 to R134, R137): the outcome of a jump by its condition and its target, the flags
that a subtraction leaves for it, and the obligations about NO_OP, JUMP, JUMP_EQ and JUMP_GT. -/

namespace Sys2Proof.Machine

/-- R67: an opcode whose slot requires an operand and takes every value of it. -/
theorem takesTarget_of_slot {opc : OpIndex} {make : Int → Instr}
    (hslot : ∀ c : Cell, c.opc = opc → classify c = requireOperand c make) : TakesTarget opc make := by
  rintro s w hf rfl
  have hdecode : decode w = requireOperand (decodeCell w) make := hslot (decodeCell w) rfl
  refine ⟨fun habsent => ?missing, fun t hpresent => ?runs⟩
  case missing =>
    rw [step_of_decode_error hf (hdecode.trans (requireOperand_none habsent make)), habsent]
  case runs => exact step_of_decode hf (hdecode.trans (requireOperand_some hpresent make))

theorem takesNoOperand_noOp : TakesNoOperand 0#4 .noOp := by
  refine takesNoOperand_of_slot fun c => ?_
  obtain ⟨slot0, -⟩ := classify_slots c
  exact slot0

theorem takesTarget_jump : TakesTarget 5#4 .jump := by
  refine takesTarget_of_slot fun c => ?_
  obtain ⟨-, -, -, -, -, slot5, -⟩ := classify_slots c
  exact slot5

theorem takesTarget_jumpEq : TakesTarget 6#4 .jumpEq := by
  refine takesTarget_of_slot fun c => ?_
  obtain ⟨-, -, -, -, -, -, slot6, -⟩ := classify_slots c
  exact slot6

theorem takesTarget_jumpGt : TakesTarget 7#4 .jumpGt := by
  refine takesTarget_of_slot fun c => ?_
  obtain ⟨-, -, -, -, -, -, -, slot7, -⟩ := classify_slots c
  exact slot7

theorem jumpIf_of_not_taken {cond : Bool} (h : cond = false) (opc : OpIndex) (t : Int) (s : State) :
    jumpIf cond opc t s = afterFetch s := by
  rw [h]
  rfl

theorem jumpIf_of_taken {cond : Bool} (h : cond = true) (opc : OpIndex) (t : Int) (s : State) :
    jumpIf cond opc t s = setPc opc t s := if_pos h

/-- R131: outside the image, in the form the "Exceptions" lines of R132 to R135 have. -/
theorem setPc_outside {t : Int} {s : State} (h : t < 0 ∨ t ≥ s.mem.size) (opc : OpIndex) :
    setPc opc t s = stopped .invalidAddress opc (some t) s :=
  setPc_invalid (by omega) opc

theorem exec_noOp (s : State) : exec .noOp s = .next (afterFetch s) := rfl

theorem exec_jump (t : Int) (s : State) : exec (.jump t) s = .next (setPc 5#4 t s) := rfl

theorem exec_jumpEq (t : Int) (s : State) : exec (.jumpEq t) s = .next (jumpIf s.zero 6#4 t s) := rfl

theorem exec_jumpGt (t : Int) (s : State) : exec (.jumpGt t) s = .next (jumpIf (condGt s) 7#4 t s) :=
  rfl

theorem condGt_eq_true_iff (s : State) : condGt s = true ↔ s.zero = false ∧ s.negative = false := by
  simp [condGt]

theorem condGt_eq_false_iff (s : State) : condGt s = false ↔ s.zero = true ∨ s.negative = true := by
  cases hz : s.zero <;> simp [condGt, hz]

/-- R26: before the last cell the fetch's advance is the next address. -/
theorem afterFetch_of_not_last {s : State} (h : s.pc + 1 < s.mem.size) :
    afterFetch s = { s with pc := s.pc + 1 } := by
  rw [← advancePc_eq_afterFetch, State.advancePc, advance_of_ne_last (by omega)]

/-- R132: a jump to the next cell writes the pc that the fetch has written already. -/
theorem exec_jump_next {s : State} (h : s.pc + 1 < s.mem.size) :
    exec (.jump ((s.pc : Int) + 1)) s = exec .noOp s := by
  have htarget : ((s.pc : Int) + 1).toNat = s.pc + 1 := by omega
  rw [exec_jump, setPc_valid (by omega), htarget, exec_noOp, afterFetch_of_not_last h]

theorem exec_cmpAb_of_ok {s : State} {r : Int} (h : aluSubtract s.a s.b = .ok r) :
    exec .cmpAb s =
      .next { afterFetch s with zero := decide (r = 0), negative := decide (r < 0) } := by
  simp only [exec, execCmpAb, getReg_A, getReg_B, h]
  rfl

/-- R103: a CMP_AB or SUB_AB that does not overflow leaves in the flags the sign of A - B. -/
theorem flags_of_compare {s s' : State} (hlow : -65536 < s.a - s.b) (hhigh : s.a - s.b < 65536)
    (h : exec .cmpAb s = .next s' ∨ exec .subAb s = .next s') :
    s'.zero = decide (s.a - s.b = 0) ∧ s'.negative = decide (s.a - s.b < 0) := by
  have hok : aluSubtract s.a s.b = .ok (s.a - s.b) := aluResult_fits (by omega)
  rw [exec_cmpAb_of_ok hok, exec_subAb_of_ok hok] at h
  rcases h with h | h <;> (obtain rfl := Host.Outcome.next.inj h; exact ⟨rfl, rfl⟩)

theorem takenTarget_jumpGt_iff (t : Int) (s : State) :
    takenTarget (.jumpGt t) s = some t ↔ s.zero = false ∧ s.negative = false := by
  simp [takenTarget]

/-- R134: neither equal nor below is above. -/
theorem takenTarget_jumpGt_of_compare {s s' : State} (t : Int) (hlow : -65536 < s.a - s.b)
    (hhigh : s.a - s.b < 65536) (h : exec .cmpAb s = .next s' ∨ exec .subAb s = .next s') :
    takenTarget (.jumpGt t) s' = some t ↔ s.a > s.b := by
  obtain ⟨hzero, hnegative⟩ := flags_of_compare hlow hhigh h
  rw [takenTarget_jumpGt_iff, hzero, hnegative, decide_eq_false_iff_not, decide_eq_false_iff_not]
  omega

/-- Settles O13: the meaning of NO_OP is the fetch's advance alone, and slot 0 of the decoder forbids an
operand. -/
theorem noOpOnlyAdvancesThePc : Obligations.NoOpOnlyAdvancesThePc :=
  ⟨by decide, exec_noOp, takesNoOperand_noOp⟩

/-- Settles O22: JUMP is `set` of its target, and slot 5 of the decoder requires an operand, of any
value. -/
theorem jumpSetsThePc : Obligations.JumpSetsThePc := by
  refine ⟨fun t _ _ => encodeCell_some_toNat 5#4 t, fun t s hlow hhigh => ?inside,
    fun t s hout => ?outside, fun s => exec_jump_next, takesTarget_jump⟩
  case inside => rw [exec_jump, setPc_valid ⟨hlow, hhigh⟩]
  case outside => rw [exec_jump, setPc_outside hout]

/-- Settles O23: JUMP_EQ is `jumpIf` on `zero`, which looks at the target only when it is taken. -/
theorem jumpEqIsTakenIffZero : Obligations.JumpEqIsTakenIffZero := by
  refine ⟨fun t _ _ => encodeCell_some_toNat 6#4 t, fun t s hzero => ?notTaken,
    fun t s hzero hlow hhigh => ?inside, fun t s hzero hout => ?outside, takesTarget_jumpEq⟩
  case notTaken => rw [exec_jumpEq, jumpIf_of_not_taken hzero]
  case inside => rw [exec_jumpEq, jumpIf_of_taken hzero, setPc_valid ⟨hlow, hhigh⟩]
  case outside => rw [exec_jumpEq, jumpIf_of_taken hzero, setPc_outside hout]

/-- Settles O24: JUMP_GT is `jumpIf` on "neither flag", and after a subtraction that does not overflow
the flags hold the sign of A - B. -/
theorem jumpGtIsTakenIffNeitherFlag : Obligations.JumpGtIsTakenIffNeitherFlag := by
  refine ⟨fun t _ _ => encodeCell_some_toNat 7#4 t, fun t s hflag => ?notTaken,
    fun t s hzero hnegative hlow hhigh => ?inside, fun t s hzero hnegative hout => ?outside,
    fun s s' t => takenTarget_jumpGt_of_compare t, takesTarget_jumpGt⟩
  case notTaken => rw [exec_jumpGt, jumpIf_of_not_taken ((condGt_eq_false_iff s).mpr hflag)]
  case inside =>
    rw [exec_jumpGt, jumpIf_of_taken ((condGt_eq_true_iff s).mpr ⟨hzero, hnegative⟩),
      setPc_valid ⟨hlow, hhigh⟩]
  case outside =>
    rw [exec_jumpGt, jumpIf_of_taken ((condGt_eq_true_iff s).mpr ⟨hzero, hnegative⟩),
      setPc_outside hout]

end Sys2Proof.Machine
end

section
/-! The events of a Cycle (R147 to R149): the trace of a fetched word by what the decoder answers, what the
execute part of an instruction can emit, the opcode names, and the obligations about them. -/

namespace Sys2Proof.Machine

theorem cycleEvents_of_fetches {s : State} {w : CellWord} (hf : Fetches s w) :
    cycleEvents s = wordEvents w s := by
  obtain ⟨hrunning, hread⟩ := hf
  simp [cycleEvents, hrunning, hread]

theorem cycleEvents_of_decode {s : State} {w : CellWord} {i : Instr} (hf : Fetches s w)
    (hd : decode w = .ok i) :
    cycleEvents s = .fetch s.pc (opcField w) (operandOf w) :: execEvents i s := by
  simp [cycleEvents_of_fetches hf, wordEvents, hd]

/-- R85, R149: the stop's event records the fetched cell's own opcode and operand. -/
theorem cycleEvents_of_decode_error {s : State} {w : CellWord} {e : DecodeError} (hf : Fetches s w)
    (hd : decode w = .error e) :
    cycleEvents s = [.fetch s.pc (opcField w) (operandOf w),
      .error .invalidOperand s.pc (opcField w) (operandOf w)] := by
  simp [cycleEvents_of_fetches hf, wordEvents, hd, cell_of_decode_error hd]

/-- R148: an Ok result is one RegWrite if the instruction has a destination, and no event if it has
none. -/
theorem aluEvents_of_fits {x : Int} (hlow : -65536 < x) (hhigh : x < 65536) (kind : OpIndex)
    (dest : Option Reg) : aluEvents kind dest (aluResult x) = (dest.map (.regWrite · x)).toList := by
  rw [aluResult_fits (by omega)]
  cases dest <;> rfl

theorem mem_aluEvents {e : Event} {kind : OpIndex} {dest : Option Reg} {result : AluResult}
    (he : e ∈ aluEvents kind dest result) : (∃ r v, e = .regWrite r v) ∨ e = .overflow kind := by
  cases result with
  | overflow => exact .inr (List.mem_singleton.mp he)
  | ok v =>
    cases dest with
    | none => nomatch he
    | some r => exact .inl ⟨r, v, List.mem_singleton.mp he⟩

theorem jumpEvents_of_not_taken {cond : Bool} (h : cond = false) (opc : OpIndex) (t : Int)
    (s : State) : jumpEvents cond opc t s = [] := by
  rw [h]
  rfl

theorem jumpEvents_of_valid {cond : Bool} {t : Int} {s : State} (h : cond = true)
    (ht : 0 ≤ t ∧ t < s.mem.size) (opc : OpIndex) :
    jumpEvents cond opc t s = [.jumpTaken t.toNat] := by
  rw [jumpEvents, if_pos h, if_pos ((validTarget_iff _ _).mpr ht)]

theorem jumpEvents_of_invalid {cond : Bool} {t : Int} {s : State} (h : cond = true)
    (ht : ¬(0 ≤ t ∧ t < s.mem.size)) (opc : OpIndex) :
    jumpEvents cond opc t s = [.error .invalidAddress s.pc opc (some t)] := by
  rw [jumpEvents, if_pos h, if_neg (by rwa [validTarget_iff])]

theorem mem_jumpEvents {e : Event} {cond : Bool} {opc : OpIndex} {t : Int} {s : State}
    (he : e ∈ jumpEvents cond opc t s) :
    (cond = true ∧ (0 ≤ t ∧ t < s.mem.size) ∧ e = .jumpTaken t.toNat) ∨
    (cond = true ∧ ¬(0 ≤ t ∧ t < s.mem.size) ∧ e = .error .invalidAddress s.pc opc (some t)) := by
  cases hcond : cond with
  | false => simp [jumpEvents_of_not_taken hcond] at he
  | true =>
    by_cases ht : 0 ≤ t ∧ t < s.mem.size
    · rw [jumpEvents_of_valid hcond ht, List.mem_singleton] at he
      exact .inl ⟨rfl, ht, he⟩
    · rw [jumpEvents_of_invalid hcond ht, List.mem_singleton] at he
      exact .inr ⟨rfl, ht, he⟩

/-- R148: as for `exec_of_jump`, the events of a jump depend on the condition that `takenTarget` reads. -/
theorem execEvents_of_jump {i : Instr} (hj : isJumpInstr i = true) (s : State) :
    ∃ cond opc t, execEvents i s = jumpEvents cond opc t s ∧
      takenTarget i s = if cond then some t else none := by
  cases i with
  | jump t => exact ⟨true, 5#4, t, rfl, rfl⟩
  | jumpEq t => exact ⟨condEq s, 6#4, t, rfl, rfl⟩
  | jumpGt t => exact ⟨condGt s, 7#4, t, rfl, rfl⟩
  | jumpLt t => exact ⟨condLt s, 8#4, t, rfl, rfl⟩
  | noOp | loadAi | loadBi | addAb | subAb | swapAb | swapAc | incA | cmpAb | reserved13 | reserved14
  | halt => nomatch hj

theorem isJumpInstr_of_takenTarget {i : Instr} {s : State} {v : Int} (h : takenTarget i s = some v) :
    isJumpInstr i = true := by
  cases hj : isJumpInstr i with
  | true => rfl
  | false => simp [takenTarget_of_not_jump hj] at h

/-- R148: a jump not taken is no event. -/
theorem execEvents_of_not_taken {i : Instr} {s : State} (hj : isJumpInstr i = true)
    (h : takenTarget i s = none) : execEvents i s = [] := by
  obtain ⟨cond, opc, t, hevents, htarget⟩ := execEvents_of_jump hj s
  have hcond : cond = false := by simpa [htarget] using h
  rw [hevents, jumpEvents_of_not_taken hcond]

/-- R148: a jump taken to a cell of the image is its JumpTaken event. -/
theorem execEvents_of_taken {i : Instr} {s : State} {v : Int} (h : takenTarget i s = some v)
    (hv : 0 ≤ v ∧ v < s.mem.size) : execEvents i s = [.jumpTaken v.toNat] := by
  obtain ⟨cond, opc, t, hevents, htarget⟩ := execEvents_of_jump (isJumpInstr_of_takenTarget h) s
  obtain ⟨hcond, rfl⟩ : cond = true ∧ t = v := by simpa [htarget] using h
  rw [hevents, jumpEvents_of_valid hcond hv]

/-- R148, R149: what one event of the execute part can be, and what JumpTaken and Halt tell of the
instruction. -/
theorem mem_execEvents {e : Event} {i : Instr} {s : State} (he : e ∈ execEvents i s) :
    (∃ r v, e = .regWrite r v) ∨ (∃ kind, e = .overflow kind) ∨
    (∃ cause opc opd, e = .error cause s.pc opc opd) ∨
    (∃ v, e = .jumpTaken v.toNat ∧ takenTarget i s = some v ∧ 0 ≤ v ∧ v < s.mem.size) ∨
    (e = .halt ∧ i = .halt) := by
  cases hj : isJumpInstr i with
  | true =>
    obtain ⟨cond, opc, t, hevents, htarget⟩ := execEvents_of_jump hj s
    rcases mem_jumpEvents (hevents ▸ he) with ⟨hcond, ht, h⟩ | ⟨-, -, h⟩
    · exact .inr (.inr (.inr (.inl ⟨t, h, by rw [htarget, if_pos hcond], ht⟩)))
    · exact .inr (.inr (.inl ⟨_, _, _, h⟩))
  | false =>
    cases i with
    | jump | jumpEq | jumpGt | jumpLt => nomatch hj
    | noOp => nomatch he
    | loadAi | loadBi => exact .inl ⟨_, _, List.mem_singleton.mp he⟩
    | swapAb | swapAc =>
      rcases List.mem_pair.mp he with he | he <;> exact .inl ⟨_, _, he⟩
    | addAb | subAb | incA | cmpAb =>
      simp only [execEvents] at he
      exact (mem_aluEvents he).imp_right fun h => .inl ⟨_, h⟩
    | reserved13 | reserved14 => exact .inr (.inr (.inl ⟨_, _, _, List.mem_singleton.mp he⟩))
    | halt => exact .inr (.inr (.inr (.inr ⟨List.mem_singleton.mp he, rfl⟩)))

theorem isFetch_of_mem_execEvents {e : Event} {i : Instr} {s : State} (he : e ∈ execEvents i s) :
    e.isFetch = false := by
  rcases mem_execEvents he with ⟨_, _, rfl⟩ | ⟨_, rfl⟩ | ⟨_, _, _, rfl⟩ | ⟨_, rfl, -⟩ | ⟨rfl, -⟩ <;> rfl

theorem jumpTaken_mem_execEvents_iff (i : Instr) (s : State) (t : Nat) :
    .jumpTaken t ∈ execEvents i s ↔
      ∃ v : Int, takenTarget i s = some v ∧ 0 ≤ v ∧ v < s.mem.size ∧ t = v.toNat := by
  constructor
  · intro he
    obtain ⟨v, ht, htaken, hlow, hhigh⟩ : ∃ v : Int, t = v.toNat ∧ takenTarget i s = some v ∧
        0 ≤ v ∧ v < s.mem.size := by simpa using mem_execEvents he
    exact ⟨v, htaken, hlow, hhigh, ht⟩
  · rintro ⟨v, htaken, hlow, hhigh, rfl⟩
    simp [execEvents_of_taken htaken ⟨hlow, hhigh⟩]

theorem halt_mem_execEvents_iff (i : Instr) (s : State) : .halt ∈ execEvents i s ↔ i = .halt := by
  constructor
  · intro he
    simpa using mem_execEvents he
  · rintro rfl
    exact List.mem_singleton_self _

/-- R147: one Fetch event, first, of a word that decodes and of a rejected cell. -/
theorem cycleEvents_fetch_first {s : State} {w : CellWord} (hf : Fetches s w) :
    ∃ es, cycleEvents s = .fetch s.pc (opcField w) (operandOf w) :: es ∧
      ∀ e ∈ es, e.isFetch = false := by
  cases hd : decode w with
  | ok i => exact ⟨_, cycleEvents_of_decode hf hd, fun _ => isFetch_of_mem_execEvents⟩
  | error _ => exact ⟨_, cycleEvents_of_decode_error hf hd, by simp [Event.isFetch]⟩

/-- R64: no two rows of the mnemonic table have the same index. -/
theorem mnemonicOf_of_mem : ∀ row ∈ mnemonicTable, mnemonicOf row.2 = some row.1 := by decide

theorem mnemonicOf_eq_some_iff (opc : OpIndex) (name : String) :
    mnemonicOf opc = some name ↔ (name, opc) ∈ mnemonicTable := by
  constructor
  · intro h
    obtain ⟨row, hfind, rfl⟩ := Option.map_eq_some_iff.mp h
    obtain rfl : row.2 = opc := by simpa using List.find?_some hfind
    exact List.mem_of_find?_eq_some hfind
  · exact mnemonicOf_of_mem (name, opc)

theorem mnemonicOf_eq_none_iff (opc : OpIndex) :
    mnemonicOf opc = none ↔ opc = 13#4 ∨ opc = 14#4 := by
  revert opc
  decide

/-- R64: the mnemonic table is the named rows without their instructions. -/
theorem mnemonicTable_eq_map_namedRows :
    mnemonicTable = namedRows.map fun row => (row.1, row.2.1) := rfl

theorem mem_mnemonicTable_iff (name : String) (opc : OpIndex) :
    (name, opc) ∈ mnemonicTable ↔ ∃ i, (name, opc, i) ∈ namedRows := by
  simp [mnemonicTable_eq_map_namedRows]

/-- Settles O50: no execute event is a Fetch, and a mnemonic is found by its index because the indices of
the table are distinct. -/
theorem fetchEventComesFirst : Obligations.FetchEventComesFirst :=
  ⟨fun _ _ => cycleEvents_fetch_first, mnemonicOf_eq_none_iff,
    fun opc name => (mnemonicOf_eq_some_iff opc name).trans (mem_mnemonicTable_iff name opc)⟩

/-- Settles O51: the events of the ALU instructions by the range of the exact result, those of the jumps
by `takenTarget`, and what an execute event can be for the two statements about every instruction. -/
theorem executeEventsOfTheInstructions : Obligations.ExecuteEventsOfTheInstructions := by
  refine ⟨fun _ _ _ => cycleEvents_of_decode, fun _ _ => ⟨rfl, rfl⟩, fun s hlow hhigh => ?add,
    fun s hlow hhigh => ⟨?sub, ?cmp⟩, fun s hlow hhigh => ?inc, fun _ => ⟨rfl, rfl, rfl, rfl⟩,
    jumpTaken_mem_execEvents_iff, fun _ _ _ h hlow hhigh => execEvents_of_taken h ⟨hlow, hhigh⟩,
    fun _ _ => execEvents_of_not_taken, halt_mem_execEvents_iff⟩
  case add => exact aluEvents_of_fits hlow hhigh 3#4 (some .C)
  case sub => exact aluEvents_of_fits hlow hhigh 4#4 (some .C)
  case cmp => exact aluEvents_of_fits hlow hhigh 12#4 none
  case inc => exact aluEvents_of_fits hlow hhigh 11#4 (some .A)

end Sys2Proof.Machine
end

section
/-! The encoding (R61 to R70): the round trip between cells, instructions and words, the words the decoder
rejects, and the obligations about them. -/

namespace Sys2Proof.Machine

/-- R70: a cell whose operand fits the operand field is the decoding of its word. -/
theorem decodeCell_encodeCell {c : Cell} (h : optEncodable c.opd = true) :
    decodeCell (encodeCell c) = c := by
  rw [decodeCell, opcField_encodeCell, operandOf_encodeCell c h]

/-- R62, R68: `D_W` is part of the operand field's range. -/
theorem optEncodable_toCell {i : Instr} (h : i.wellFormed = true) :
    optEncodable i.toCell.opd = true := by
  cases i with
  | loadAi | loadBi => exact fitsW_encodable h
  | jump | jumpEq | jumpGt | jumpLt | reserved13 | reserved14 => exact h
  | noOp | addAb | subAb | swapAb | swapAc | incA | cmpAb | halt => rfl

/-- R64: the family `SlotRoundTrip` as one statement. -/
theorem classify_toCell : ∀ i : Instr, Laws.SlotRoundTrip.Statement i
  | .noOp => Laws.SlotRoundTrip.noOp
  | .loadAi v => Laws.SlotRoundTrip.loadAi v
  | .loadBi v => Laws.SlotRoundTrip.loadBi v
  | .addAb => Laws.SlotRoundTrip.addAb
  | .subAb => Laws.SlotRoundTrip.subAb
  | .jump t => Laws.SlotRoundTrip.jump t
  | .jumpEq t => Laws.SlotRoundTrip.jumpEq t
  | .jumpGt t => Laws.SlotRoundTrip.jumpGt t
  | .jumpLt t => Laws.SlotRoundTrip.jumpLt t
  | .swapAb => Laws.SlotRoundTrip.swapAb
  | .swapAc => Laws.SlotRoundTrip.swapAc
  | .incA => Laws.SlotRoundTrip.incA
  | .cmpAb => Laws.SlotRoundTrip.cmpAb
  | .reserved13 opd => Laws.SlotRoundTrip.reserved13 opd
  | .reserved14 opd => Laws.SlotRoundTrip.reserved14 opd
  | .halt => Laws.SlotRoundTrip.halt

theorem decode_encode {i : Instr} (h : i.wellFormed = true) : decode (encode i) = .ok i := by
  rw [decode, encode, decodeCell_encodeCell (optEncodable_toCell h), classify_toCell i h]

/-- R62: the operand of a word, in numbers. -/
theorem operandOf_eq (w : CellWord) :
    operandOf w = if w.toNat / 2 ^ 17 % 2 = 1 then
        some (if w.toNat % 2 ^ 17 < 2 ^ 16 then ((w.toNat % 2 ^ 17 : Nat) : Int)
          else ((w.toNat % 2 ^ 17 : Nat) : Int) - 2 ^ 17)
      else none := by
  have hsign : (immField w).toInt = if w.toNat % 2 ^ 17 < 2 ^ 16 then ((w.toNat % 2 ^ 17 : Nat) : Int)
      else ((w.toNat % 2 ^ 17 : Nat) : Int) - 2 ^ 17 := by
    rw [BitVec.toInt_eq_toNat_cond, immField_toNat]
    split <;> split <;> omega
  simp only [operandOf, presentBit_eq, decide_eq_true_eq, hsign]

theorem operandOf_eq_none_iff (w : CellWord) : operandOf w = none ↔ w.toNat / 2 ^ 17 % 2 = 0 := by
  rw [operandOf_eq]
  split <;> simp <;> omega

theorem operandOf_ne_none_iff (w : CellWord) : operandOf w ≠ none ↔ w.toNat / 2 ^ 17 % 2 = 1 := by
  rw [ne_eq, operandOf_eq_none_iff]
  omega

/-- R68: of the values an operand field can hold, -65536 is the one outside `D_W`. -/
theorem operandOf_unfit_iff_lowest (w : CellWord) :
    (∃ v, operandOf w = some v ∧ fitsW v = false) ↔ operandOf w = some (-65536) := by
  refine ⟨fun ⟨v, hv, hunfit⟩ => ?_, fun h => ⟨-65536, h, by decide⟩⟩
  by_cases h : v = -65536
  · rw [hv, h]
  · simp [fitsW_of_operandOf hv h] at hunfit

/-- R62: whose `imm` bits are 0x10000. -/
theorem operandOf_eq_lowest_iff (w : CellWord) :
    operandOf w = some (-65536) ↔ w.toNat / 2 ^ 17 % 2 = 1 ∧ w.toNat % 2 ^ 17 = 0x10000 := by
  rw [operandOf_eq]
  by_cases hbit : w.toNat / 2 ^ 17 % 2 = 1
  · simp only [hbit, if_true, true_and, Option.some.injEq]
    split <;> omega
  · simp only [hbit, if_false, false_and, reduceCtorEq]

theorem requireOperand_rejects_iff (c : Cell) (make : Int → Instr) :
    (∃ e, requireOperand c make = .error e) ↔ c.opd = none := by
  cases h : c.opd with
  | none => simp [requireOperand_none h]
  | some v => simp [requireOperand_some h]

theorem requireValue_rejects_iff (c : Cell) (make : Int → Instr) :
    (∃ e, requireValue c make = .error e) ↔
      c.opd = none ∨ ∃ v, c.opd = some v ∧ fitsW v = false := by
  cases h : c.opd with
  | none => simp [requireValue_none h]
  | some v => cases hv : fitsW v <;> simp [requireValue_unfit, requireValue_some, h, hv]

theorem forbidOperand_rejects_iff (c : Cell) (i : Instr) :
    (∃ e, forbidOperand c i = .error e) ↔ c.opd ≠ none := by
  cases h : c.opd with
  | none => simp [forbidOperand_none h]
  | some v => simp [forbidOperand_some h]

/-- R67 to R69: the opcodes that need an operand, those that forbid one, and the two loads. -/
theorem classify_rejects_iff (c : Cell) : (∃ e, classify c = .error e) ↔
    (c.opc ∈ [1#4, 2#4, 5#4, 6#4, 7#4, 8#4] ∧ c.opd = none) ∨
    (c.opc ∈ [0#4, 3#4, 4#4, 9#4, 10#4, 11#4, 12#4, 15#4] ∧ c.opd ≠ none) ∨
    (c.opc ∈ [1#4, 2#4] ∧ ∃ v, c.opd = some v ∧ fitsW v = false) := by
  have hslots := classify_slots c
  rcases opIndex_cases c.opc with
    h | h | h | h | h | h | h | h | h | h | h | h | h | h | h | h <;>
    simp [h] at hslots <;>
    simp [h, hslots, requireOperand_rejects_iff, requireValue_rejects_iff, forbidOperand_rejects_iff]

/-- R85: a load is accepted only with an operand of `D_W`. -/
theorem fitsW_of_requireValue {c : Cell} {make : Int → Instr} {v : Int} {i : Instr}
    (h : requireValue c make = .ok i) (hv : c.opd = some v) : fitsW v = true := by
  cases hfits : fitsW v with
  | true => rfl
  | false => simp [requireValue_unfit hv hfits] at h

theorem wellFormed_of_decode {w : CellWord} {i : Instr} (h : decode w = .ok i) :
    i.wellFormed = true := by
  have hcell : i.toCell = decodeCell w := toCell_of_decode h
  have hencodable : optEncodable i.toCell.opd = true := hcell ▸ operandOf_encodable w
  rw [decode, ← hcell] at h
  cases i with
  | noOp | addAb | subAb | swapAb | swapAc | incA | cmpAb | halt => rfl
  | jump | jumpEq | jumpGt | jumpLt | reserved13 | reserved14 => exact hencodable
  | loadAi v => exact fitsW_of_requireValue (c := ⟨1#4, some v⟩) (make := .loadAi) h rfl
  | loadBi v => exact fitsW_of_requireValue (c := ⟨2#4, some v⟩) (make := .loadBi) h rfl

/-- R62, R70: the two operand fields of a canonical word are those of its operand. -/
theorem encodeOperand_operandOf {w : CellWord} (h : presentBit w = true ∨ immField w = 0#17) :
    encodeOperand (operandOf w) = (presentBit w, immField w) := by
  cases hp : presentBit w with
  | true => simp [operandOf, hp, encodeOperand]
  | false => simpa [operandOf, hp, encodeOperand, eq_comm] using h

theorem encodeCell_decodeCell {w : CellWord} (h : presentBit w = true ∨ immField w = 0#17) :
    encodeCell (decodeCell w) = w := by
  apply BitVec.eq_of_toNat_eq
  rw [encodeCell_toNat, decodeCell_opc, decodeCell_opd, encodeOperand_operandOf h, opcField_toNat,
    immField_toNat, presentBit_eq]
  by_cases hbit : w.toNat / 2 ^ 17 % 2 = 1
  · rw [decide_eq_true hbit, Bool.toNat_true]
    omega
  · rw [decide_eq_false hbit, Bool.toNat_false]
    omega

/-- Settles O3: the word of a well-formed instruction decodes to its cell, and the decoder's slot for
that cell is the instruction. -/
theorem encodedInstructionDecodes : Obligations.EncodedInstructionDecodes :=
  fun _ => decode_encode

/-- Settles O1: the opcode is the quotient by 2^18, and the sign of the operand is bit 16. -/
theorem cellFieldsAreTheSpecsBits : Obligations.CellFieldsAreTheSpecsBits :=
  fun w => ⟨opcField_toNat w, operandOf_eq w⟩

/-- Settles O2: the operand field of a word holds every value of the range. -/
theorem encodedCellDecodes : Obligations.EncodedCellDecodes := by
  intro c hrange
  apply decodeCell_encodeCell
  cases hc : c.opd with
  | none => rfl
  | some v => exact (operandEncodable_iff v).mpr (hrange v hc)

/-- Settles O4: the decoder keeps the word's cell, and a canonical word is the word of its cell. -/
theorem canonicalWordReencodes : Obligations.CanonicalWordReencodes := by
  intro w i hd hcanonical
  rw [encode, toCell_of_decode hd, encodeCell_decodeCell hcanonical]

/-- Settles O5: an operand comes from the operand field, and a load's has passed the decoder's check. -/
theorem decodedInstructionIsWellFormed : Obligations.DecodedInstructionIsWellFormed :=
  fun _ _ => wellFormed_of_decode

/-- Settles O6: the cells the decoder rejects, read off the word. -/
theorem wordIsRejectedExactly : Obligations.WordIsRejectedExactly := by
  intro w
  have hcells := classify_rejects_iff (decodeCell w)
  rw [decodeCell_opd, operandOf_eq_none_iff, operandOf_ne_none_iff, operandOf_unfit_iff_lowest,
    operandOf_eq_lowest_iff] at hcells
  simpa [decode, BitVec.toNat_eq, opcField_toNat] using hcells

/-- Settles O7, by evaluating the decoder on the eight words. -/
theorem wordsOfTheSpecDecode : Obligations.WordsOfTheSpecDecode := by
  unfold Obligations.WordsOfTheSpecDecode
  decide

end Sys2Proof.Machine
end

section
/-! The instructions SWAP_AC, CMP_AB and JUMP_LT, the laws of the ALU, what the flags say after a
comparison, and the Cycle of a word that decodes or is rejected. -/

namespace Sys2Proof.Machine

theorem exec_swapAc (s : State) : exec .swapAc s = .next { afterFetch s with a := s.c, c := s.a } := rfl

theorem exec_halt (s : State) : exec .halt s = .next { afterFetch s with halted := true } := rfl

theorem exec_jumpLt (t : Int) (s : State) : exec (.jumpLt t) s = .next (jumpIf (condLt s) 8#4 t s) :=
  rfl

theorem exec_cmpAb_of_overflow {s : State} (h : aluSubtract s.a s.b = .overflow) :
    exec .cmpAb s = .next (afterFetch s) := by
  simp only [exec, execCmpAb, getReg_A, getReg_B, h, advancePc_eq_afterFetch]

theorem takesNoOperand_swapAc : TakesNoOperand 10#4 .swapAc := by
  refine takesNoOperand_of_slot fun c => ?_
  obtain ⟨-, -, -, -, -, -, -, -, -, -, slot10, -⟩ := classify_slots c
  exact slot10

theorem takesNoOperand_cmpAb : TakesNoOperand 12#4 .cmpAb := by
  refine takesNoOperand_of_slot fun c => ?_
  obtain ⟨-, -, -, -, -, -, -, -, -, -, -, -, slot12, -⟩ := classify_slots c
  exact slot12

theorem takesNoOperand_halt : TakesNoOperand 15#4 .halt := by
  refine takesNoOperand_of_slot fun c => ?_
  obtain ⟨-, -, -, -, -, -, -, -, -, -, -, -, -, -, -, slot15⟩ := classify_slots c
  exact slot15

theorem takesTarget_jumpLt : TakesTarget 8#4 .jumpLt := by
  refine takesTarget_of_slot fun c => ?_
  obtain ⟨-, -, -, -, -, -, -, -, slot8, -⟩ := classify_slots c
  exact slot8

theorem condLt_eq_true_iff (s : State) : condLt s = true ↔ s.zero = false ∧ s.negative = true := by
  simp [condLt]

theorem condLt_eq_false_iff (s : State) : condLt s = false ↔ s.zero = true ∨ s.negative = false := by
  cases hz : s.zero <;> simp [condLt, hz]

theorem takenTarget_jumpEq_iff (t : Int) (s : State) :
    takenTarget (.jumpEq t) s = some t ↔ s.zero = true := by
  simp [takenTarget]

theorem takenTarget_jumpLt_iff (t : Int) (s : State) :
    takenTarget (.jumpLt t) s = some t ↔ s.zero = false ∧ s.negative = true := by
  simp [takenTarget]

/-- R135: a negative difference is not zero. -/
theorem takenTarget_jumpLt_of_compare {s s' : State} (t : Int) (hlow : -65536 < s.a - s.b)
    (hhigh : s.a - s.b < 65536) (h : exec .cmpAb s = .next s' ∨ exec .subAb s = .next s') :
    takenTarget (.jumpLt t) s' = some t ↔ s.a < s.b := by
  obtain ⟨hzero, hnegative⟩ := flags_of_compare hlow hhigh h
  rw [takenTarget_jumpLt_iff, hzero, hnegative, decide_eq_false_iff_not, decide_eq_true_eq]
  omega

theorem takenTarget_jumpEq_of_compare {s s' : State} (t : Int) (hlow : -65536 < s.a - s.b)
    (hhigh : s.a - s.b < 65536) (h : exec .cmpAb s = .next s' ∨ exec .subAb s = .next s') :
    takenTarget (.jumpEq t) s' = some t ↔ s.a = s.b := by
  obtain ⟨hzero, -⟩ := flags_of_compare hlow hhigh h
  rw [takenTarget_jumpEq_iff, hzero, decide_eq_true_eq]
  omega

theorem aluResult_ok_iff (x : Int) : aluResult x = .ok x ↔ -65535 ≤ x ∧ x ≤ 65535 :=
  ⟨fun h => (fitsW_iff x).mp (aluResult_ok h).2, aluResult_fits⟩

theorem aluResult_overflow_iff (x : Int) :
    aluResult x = .overflow ↔ ¬(-65535 ≤ x ∧ x ≤ 65535) := by
  refine ⟨fun h hfits => ?_, aluResult_overflow⟩
  rw [aluResult_fits hfits] at h
  cases h

/-- Settles O17: the meaning of SWAP_AC is the exchange, and slot 10 of the decoder forbids an operand. -/
theorem swapAcExchangesAAndC : Obligations.SwapAcExchangesAAndC :=
  ⟨by decide, exec_swapAc, takesNoOperand_swapAc⟩

/-- Settles O21: as for SUB_AB, with the flags alone, and slot 12. -/
theorem cmpAbWritesOnlyTheFlags : Obligations.CmpAbWritesOnlyTheFlags :=
  ⟨by decide, fun _ => outcome_of_aluResult exec_cmpAb_of_ok exec_cmpAb_of_overflow,
    takesNoOperand_cmpAb⟩

/-- Settles O25: JUMP_LT is `jumpIf` on "negative alone", and after a subtraction that does not overflow
the flags hold the sign of A - B. -/
theorem jumpLtIsTakenIffOnlyNegative : Obligations.JumpLtIsTakenIffOnlyNegative := by
  refine ⟨fun t _ _ => encodeCell_some_toNat 8#4 t, fun t s hflag => ?notTaken,
    fun t s hzero hnegative hlow hhigh => ?inside, fun t s hzero hnegative hout => ?outside,
    fun s s' t => takenTarget_jumpLt_of_compare t, takesTarget_jumpLt⟩
  case notTaken => rw [exec_jumpLt, jumpIf_of_not_taken ((condLt_eq_false_iff s).mpr hflag)]
  case inside =>
    rw [exec_jumpLt, jumpIf_of_taken ((condLt_eq_true_iff s).mpr ⟨hzero, hnegative⟩),
      setPc_valid ⟨hlow, hhigh⟩]
  case outside =>
    rw [exec_jumpLt, jumpIf_of_taken ((condLt_eq_true_iff s).mpr ⟨hzero, hnegative⟩),
      setPc_outside hout]

/-- Settles O29: each law is a fact about the exact result, since the ALU's answer depends on that
alone. -/
theorem aluLawsOnRegisterValues : Obligations.AluLawsOnRegisterValues := by
  intro a b ha hb
  rw [fitsW_iff] at ha hb
  refine ⟨aluResult_ok_iff (a + b), ?comm, aluResult_ok_iff (a - b), ?self, ?symm, ?neg, ?inc⟩
  case comm => rw [aluAdd, aluAdd, Int.add_comm]
  case self => rw [aluSubtract, Int.sub_self, aluResult_fits (by decide)]
  case symm =>
    rw [aluSubtract, aluSubtract, aluResult_overflow_iff, aluResult_overflow_iff]
    omega
  case neg => rw [aluSubtract, Int.zero_sub, aluResult_fits (by omega)]
  case inc =>
    rw [aluIncrement, aluResult_ok_iff]
    omega

/-- Settles O30: the flags of a comparison that does not overflow decide the three jumps, and in any
state the three conditions split the four values of the two flags. -/
theorem compareDecidesTheOrder : Obligations.CompareDecidesTheOrder := by
  refine ⟨fun s t hlow hhigh => ?compare, fun s t => ?partition⟩
  case compare =>
    have hcmp := exec_cmpAb_of_ok (s := s) (aluResult_fits (x := s.a - s.b) (by omega))
    exact ⟨_, hcmp, takenTarget_jumpEq_of_compare t hlow hhigh (.inl hcmp),
      takenTarget_jumpLt_of_compare t hlow hhigh (.inl hcmp),
      takenTarget_jumpGt_of_compare t hlow hhigh (.inl hcmp)⟩
  case partition =>
    cases hzero : s.zero <;> cases hnegative : s.negative <;> simp [takenTarget, hzero, hnegative]

/-- Settles O31, by running the three exchanges. -/
theorem threeSwapsExchangeBAndC : Obligations.ThreeSwapsExchangeBAndC :=
  fun s => ⟨_, _, _, exec_swapAb s, exec_swapAc _, exec_swapAb _, rfl⟩

/-- Settles O8. The step of a running block adds nothing around the decoded instruction's `exec`. -/
theorem stepRunsDecodedInstruction : Obligations.StepRunsDecodedInstruction :=
  fun _ _ _ => step_of_decode

/-- Settles O9: the decoder keeps the rejected cell, and the stop records it. -/
theorem rejectedCellIsInvalidOperand : Obligations.RejectedCellIsInvalidOperand :=
  fun _ _ _ => step_of_decode_error

end Sys2Proof.Machine
end

section
/-! What a Cycle can do, said once (R86, R148, R149): the relation `Effect` lists the states that an
instruction can lead to, each with its condition and its events.  It holds of exactly what `exec` and
`execEvents` answer, so a fact about every instruction is one case analysis of it. -/

namespace Sys2Proof.Machine

theorem eq_of_next {outcome : Host.Outcome State Fault Refusal} {s t : State}
    (hs : outcome = .next s) (ht : outcome = .next t) : s = t :=
  Host.Outcome.next.inj (hs.symm.trans ht)

/-- R102 to R104: the exact result that an ALU instruction tests. -/
def exactResult (s : State) : Instr → Option Int
  | .addAb => some (s.a + s.b)
  | .subAb => some (s.a - s.b)
  | .cmpAb => some (s.a - s.b)
  | .incA => some (s.a + 1)
  | _ => none

/-- The state after an instruction executed in `s` and the events of its execute part. -/
inductive Effect (s : State) : Instr → State → List Event → Prop
  | noOp : Effect s .noOp (afterFetch s) []
  | loadAi (v : Int) : Effect s (.loadAi v) { afterFetch s with a := v } [.regWrite .A v]
  | loadBi (v : Int) : Effect s (.loadBi v) { afterFetch s with b := v } [.regWrite .B v]
  | swapAb : Effect s .swapAb { afterFetch s with a := s.b, b := s.a }
      [.regWrite .A s.b, .regWrite .B s.a]
  | swapAc : Effect s .swapAc { afterFetch s with a := s.c, c := s.a }
      [.regWrite .A s.c, .regWrite .C s.a]
  | addAb (hfits : fitsW (s.a + s.b) = true) : Effect s .addAb
      { afterFetch s with c := s.a + s.b, zero := decide (s.a + s.b = 0) } [.regWrite .C (s.a + s.b)]
  | subAb (hfits : fitsW (s.a - s.b) = true) : Effect s .subAb
      { afterFetch s with
        c := s.a - s.b, zero := decide (s.a - s.b = 0), negative := decide (s.a - s.b < 0) }
      [.regWrite .C (s.a - s.b)]
  | cmpAb (hfits : fitsW (s.a - s.b) = true) : Effect s .cmpAb
      { afterFetch s with zero := decide (s.a - s.b = 0), negative := decide (s.a - s.b < 0) } []
  | incA (hfits : fitsW (s.a + 1) = true) : Effect s .incA { afterFetch s with a := s.a + 1 }
      [.regWrite .A (s.a + 1)]
  | overflow {i : Instr} {x : Int} (hx : exactResult s i = some x) (hunfit : fitsW x = false) :
      Effect s i (afterFetch s) [.overflow i.toCell.opc]
  | notTaken {i : Instr} (hj : isJumpInstr i = true) (htarget : takenTarget i s = none) :
      Effect s i (afterFetch s) []
  | taken {i : Instr} {t : Int} (htarget : takenTarget i s = some t)
      (ht : 0 ≤ t ∧ t < s.mem.size) : Effect s i { s with pc := t.toNat } [.jumpTaken t.toNat]
  | outside {i : Instr} {t : Int} (htarget : takenTarget i s = some t)
      (ht : ¬(0 ≤ t ∧ t < s.mem.size)) :
      Effect s i (stopped .invalidAddress i.toCell.opc i.toCell.opd s)
        [.error .invalidAddress s.pc i.toCell.opc i.toCell.opd]
  | reserved {i : Instr} (hslot : i.toCell.opc = 13#4 ∨ i.toCell.opc = 14#4) :
      Effect s i (stopped .invalidOpcode i.toCell.opc i.toCell.opd s)
        [.error .invalidOpcode s.pc i.toCell.opc i.toCell.opd]
  | halt : Effect s .halt { afterFetch s with halted := true } [.halt]

/-- R107: an instruction whose exact result does not fit changes nothing but the pc, and reports it. -/
theorem exec_of_overflow {s : State} {i : Instr} {x : Int} (hx : exactResult s i = some x)
    (hunfit : fitsW x = false) :
    exec i s = .next (afterFetch s) ∧ execEvents i s = [.overflow i.toCell.opc] := by
  have hoverflow : aluResult x = .overflow := by simp [aluResult, hunfit]
  cases i with
  | addAb =>
    cases hx
    exact ⟨exec_addAb_of_overflow hoverflow, congrArg (aluEvents 3#4 (some .C)) hoverflow⟩
  | subAb =>
    cases hx
    exact ⟨exec_subAb_of_overflow hoverflow, congrArg (aluEvents 4#4 (some .C)) hoverflow⟩
  | incA =>
    cases hx
    exact ⟨exec_incA_of_overflow hoverflow, congrArg (aluEvents 11#4 (some .A)) hoverflow⟩
  | cmpAb =>
    cases hx
    exact ⟨exec_cmpAb_of_overflow hoverflow, congrArg (aluEvents 12#4 none) hoverflow⟩
  | noOp | loadAi | loadBi | jump | jumpEq | jumpGt | jumpLt | swapAb | swapAc | reserved13 | reserved14
  | halt => nomatch hx

/-- R130 to R135: state and events of a jump, with the opcode and operand of its own cell. -/
theorem exec_of_jump_cell {i : Instr} (hj : isJumpInstr i = true) (s : State) :
    ∃ cond t, i.toCell.opd = some t ∧ takenTarget i s = (if cond then some t else none) ∧
      exec i s = .next (jumpIf cond i.toCell.opc t s) ∧
      execEvents i s = jumpEvents cond i.toCell.opc t s := by
  cases i with
  | jump t => exact ⟨true, t, rfl, rfl, rfl, rfl⟩
  | jumpEq t => exact ⟨condEq s, t, rfl, rfl, rfl, rfl⟩
  | jumpGt t => exact ⟨condGt s, t, rfl, rfl, rfl, rfl⟩
  | jumpLt t => exact ⟨condLt s, t, rfl, rfl, rfl, rfl⟩
  | noOp | loadAi | loadBi | addAb | subAb | swapAb | swapAc | incA | cmpAb | reserved13 | reserved14
  | halt => nomatch hj

theorem exec_of_not_taken {s : State} {i : Instr} (hj : isJumpInstr i = true)
    (htarget : takenTarget i s = none) : exec i s = .next (afterFetch s) := by
  obtain ⟨cond, t, -, hcond, hexec, -⟩ := exec_of_jump_cell hj s
  rw [hexec, jumpIf_of_not_taken (by simpa [htarget] using hcond)]

/-- R131: a taken jump is `set` of its operand, with the opcode and operand of its cell. -/
theorem exec_of_taken {s : State} {i : Instr} {t : Int} (htarget : takenTarget i s = some t) :
    i.toCell.opd = some t ∧ exec i s = .next (setPc i.toCell.opc t s) ∧
      execEvents i s = jumpEvents true i.toCell.opc t s := by
  obtain ⟨cond, v, hopd, hcond, hexec, hevents⟩ :=
    exec_of_jump_cell (isJumpInstr_of_takenTarget htarget) s
  obtain ⟨rfl, rfl⟩ : cond = true ∧ v = t := by simpa [htarget, eq_comm] using hcond
  exact ⟨hopd, hexec, hevents⟩

theorem exec_of_reserved {i : Instr} (hslot : i.toCell.opc = 13#4 ∨ i.toCell.opc = 14#4) (s : State) :
    exec i s = .next (stopped .invalidOpcode i.toCell.opc i.toCell.opd s) ∧
      execEvents i s = [.error .invalidOpcode s.pc i.toCell.opc i.toCell.opd] := by
  cases i with
  | reserved13 | reserved14 => exact ⟨rfl, rfl⟩
  | noOp | loadAi | loadBi | addAb | subAb | jump | jumpEq | jumpGt | jumpLt | swapAb | swapAc | incA
  | cmpAb | halt => simp [Instr.toCell] at hslot

/-- The relation says nothing that the machine does not do. -/
theorem exec_of_effect {s s' : State} {i : Instr} {es : List Event} (h : Effect s i s' es) :
    exec i s = .next s' ∧ execEvents i s = es := by
  cases h with
  | noOp | loadAi | loadBi | swapAb | swapAc | halt => exact ⟨rfl, rfl⟩
  | addAb hfits =>
    have hok : aluAdd s.a s.b = .ok _ := aluResult_fits ((fitsW_iff _).mp hfits)
    exact ⟨exec_addAb_of_ok hok, congrArg (aluEvents 3#4 (some .C)) hok⟩
  | subAb hfits =>
    have hok : aluSubtract s.a s.b = .ok _ := aluResult_fits ((fitsW_iff _).mp hfits)
    exact ⟨exec_subAb_of_ok hok, congrArg (aluEvents 4#4 (some .C)) hok⟩
  | cmpAb hfits =>
    have hok : aluSubtract s.a s.b = .ok _ := aluResult_fits ((fitsW_iff _).mp hfits)
    exact ⟨exec_cmpAb_of_ok hok, congrArg (aluEvents 12#4 none) hok⟩
  | incA hfits =>
    have hok : aluIncrement s.a = .ok _ := aluResult_fits ((fitsW_iff _).mp hfits)
    exact ⟨exec_incA_of_ok hok, congrArg (aluEvents 11#4 (some .A)) hok⟩
  | overflow hx hunfit => exact exec_of_overflow hx hunfit
  | notTaken hj htarget => exact ⟨exec_of_not_taken hj htarget, execEvents_of_not_taken hj htarget⟩
  | taken htarget ht =>
    obtain ⟨-, hexec, -⟩ := exec_of_taken htarget
    exact ⟨hexec.trans (congrArg _ (setPc_valid ht _)), execEvents_of_taken htarget ht⟩
  | outside htarget ht =>
    obtain ⟨hopd, hexec, hevents⟩ := exec_of_taken htarget
    rw [hexec, hevents, hopd, setPc_invalid ht, jumpEvents_of_invalid rfl ht]
    exact ⟨rfl, rfl⟩
  | reserved hslot => exact exec_of_reserved hslot s

theorem effect_of_jump {i : Instr} (hj : isJumpInstr i = true) (s : State) :
    ∃ s' es, Effect s i s' es := by
  cases htarget : takenTarget i s with
  | none => exact ⟨_, _, .notTaken hj htarget⟩
  | some t =>
    by_cases ht : 0 ≤ t ∧ t < s.mem.size
    · exact ⟨_, _, .taken htarget ht⟩
    · exact ⟨_, _, .outside htarget ht⟩

/-- An ALU instruction has one effect for each of the two results. -/
theorem effect_of_alu {s s' : State} {i : Instr} {x : Int} {es : List Event}
    (hx : exactResult s i = some x) (hok : fitsW x = true → Effect s i s' es) :
    ∃ s' es, Effect s i s' es := by
  cases hfits : fitsW x with
  | true => exact ⟨_, _, hok hfits⟩
  | false => exact ⟨_, _, .overflow hx hfits⟩

theorem exists_effect (i : Instr) (s : State) : ∃ s' es, Effect s i s' es := by
  cases i with
  | noOp => exact ⟨_, _, .noOp⟩
  | loadAi v => exact ⟨_, _, .loadAi v⟩
  | loadBi v => exact ⟨_, _, .loadBi v⟩
  | swapAb => exact ⟨_, _, .swapAb⟩
  | swapAc => exact ⟨_, _, .swapAc⟩
  | addAb => exact effect_of_alu rfl .addAb
  | subAb => exact effect_of_alu rfl .subAb
  | cmpAb => exact effect_of_alu rfl .cmpAb
  | incA => exact effect_of_alu rfl .incA
  | jump | jumpEq | jumpGt | jumpLt => exact effect_of_jump rfl s
  | reserved13 => exact ⟨_, _, .reserved (.inl rfl)⟩
  | reserved14 => exact ⟨_, _, .reserved (.inr rfl)⟩
  | halt => exact ⟨_, _, .halt⟩

/-- The relation says everything that the machine does. -/
theorem effect_of_exec {s s' : State} {i : Instr} (h : exec i s = .next s') :
    Effect s i s' (execEvents i s) := by
  obtain ⟨t, es, heffect⟩ := exists_effect i s
  obtain ⟨hexec, rfl⟩ := exec_of_effect heffect
  obtain rfl : t = s' := eq_of_next hexec h
  exact heffect

theorem exec_next (i : Instr) (s : State) : ∃ s', exec i s = .next s' := by
  obtain ⟨s', es, heffect⟩ := exists_effect i s
  exact ⟨s', (exec_of_effect heffect).1⟩

/-- R83 to R87: a Cycle is the effect of the instruction its word decodes to, or the stop for a cell the
decoder rejects. -/
theorem cycle_cases {s s' : State} {w : CellWord} (hf : Fetches s w) (hstep : step s = .next s') :
    (∃ i, decode w = .ok i ∧ i.toCell = decodeCell w ∧ Effect s i s' (execEvents i s)) ∨
    (∃ e, decode w = .error e ∧ s' = stopped .invalidOperand (opcField w) (operandOf w) s) := by
  cases hd : decode w with
  | ok i =>
    exact .inl ⟨i, rfl, toCell_of_decode hd, effect_of_exec ((step_of_decode hf hd).symm.trans hstep)⟩
  | error e =>
    exact .inr ⟨e, rfl, eq_of_next hstep (step_of_decode_error hf hd)⟩

/-- R88: every Cycle has a next state. -/
theorem step_next_of_fetches {s : State} {w : CellWord} (hf : Fetches s w) :
    ∃ s', step s = .next s' := by
  cases hd : decode w with
  | ok i =>
    rw [step_of_decode hf hd]
    exact exec_next i s
  | error e => exact ⟨_, step_of_decode_error hf hd⟩

theorem step_of_outside {s : State} (hrunning : s.halted = false) (hread : s.mem.read s.pc = none) :
    step s = .fault .fetchOutsideImage := by
  simp [step, cycleOrHold, runCycle, hrunning, hread]

end Sys2Proof.Machine
end

section
/-! The whole-step function (R87): on the cell of a well-formed instruction it is the instruction's meaning,
on a cell the decoder rejects it is the stop, and the obligation that compares it with the machine. -/

namespace Sys2Proof.Machine

/-- As `outcome_of_aluResult`, with the range as R87 writes it. -/
theorem outcome_of_fitting {x : Int} {outcome : Host.Outcome State Fault Refusal} {written kept : State}
    (hok : aluResult x = .ok x → outcome = .next written)
    (hoverflow : aluResult x = .overflow → outcome = .next kept) :
    outcome = .next (if -65535 ≤ x ∧ x ≤ 65535 then written else kept) := by
  have hrange : (-65536 < x ∧ x < 65536) ↔ (-65535 ≤ x ∧ x ≤ 65535) := by omega
  rw [outcome_of_aluResult hok hoverflow, if_congr hrange rfl rfl]

/-- R87's `jump`, applied to the state after the fetch, is the model's. -/
theorem wholeJump_eq_jumpIf (cond : Bool) (opc : OpIndex) (t : Int) (s : State) :
    wholeJump (afterFetch s) cond s.pc opc t = jumpIf cond opc t s := by
  rcases jumpIf_cases cond opc t s with ⟨rfl, h⟩ | ⟨rfl, ht, h⟩ | ⟨rfl, ht, h⟩
  · exact h.symm
  · rw [h]
    exact if_pos ht
  · rw [h]
    exact if_neg ht

theorem exec_eq_wholeStep {i : Instr} (h : i.wellFormed = true) (s : State) :
    exec i s = .next (wholeStep s i.toCell.opc i.toCell.opd) := by
  cases i with
  | noOp | swapAb | swapAc | reserved13 | reserved14 | halt => rfl
  | loadAi v | loadBi v => exact congrArg Host.Outcome.next (if_pos ((fitsW_iff v).mp h)).symm
  | addAb => exact outcome_of_fitting exec_addAb_of_ok exec_addAb_of_overflow
  | subAb => exact outcome_of_fitting exec_subAb_of_ok exec_subAb_of_overflow
  | incA => exact outcome_of_fitting exec_incA_of_ok exec_incA_of_overflow
  | cmpAb => exact outcome_of_fitting exec_cmpAb_of_ok exec_cmpAb_of_overflow
  | jump t => exact congrArg _ (wholeJump_eq_jumpIf true 5#4 t s).symm
  | jumpEq t => exact congrArg _ (wholeJump_eq_jumpIf (condEq s) 6#4 t s).symm
  | jumpGt t => exact congrArg _ (wholeJump_eq_jumpIf (condGt s) 7#4 t s).symm
  | jumpLt t => exact congrArg _ (wholeJump_eq_jumpIf (condLt s) 8#4 t s).symm

/-- R85, R87: the last line of the whole-step function, and its test of a load's operand, catch the cells
the decoder rejects. -/
theorem wholeStep_of_rejected {c : Cell} (h : ∃ e, classify c = .error e) (s : State) :
    wholeStep s c.opc c.opd = stopped .invalidOperand c.opc c.opd s := by
  obtain ⟨opc, opd⟩ := c
  rcases (classify_rejects_iff _).mp h with ⟨hopc, rfl⟩ | ⟨hopc, hpresent⟩ | ⟨hopc, v, rfl, hunfit⟩
  · simp only [List.mem_cons, List.not_mem_nil, or_false] at hopc
    rcases hopc with rfl | rfl | rfl | rfl | rfl | rfl <;> rfl
  · obtain ⟨v, rfl⟩ := Option.ne_none_iff_exists'.mp hpresent
    simp only [List.mem_cons, List.not_mem_nil, or_false] at hopc
    rcases hopc with rfl | rfl | rfl | rfl | rfl | rfl | rfl | rfl <;> rfl
  · have hrange : ¬(-65535 ≤ v ∧ v ≤ 65535) := by rw [← fitsW_iff, hunfit]; decide
    simp only [List.mem_cons, List.not_mem_nil, or_false] at hopc
    rcases hopc with rfl | rfl <;> exact if_neg hrange

/-- Settles O12: a word that decodes does what the whole-step function says of its instruction's cell, and
a rejected cell is its InvalidOperand stop. -/
theorem stepIsTheWholeStepFunction : Obligations.StepIsTheWholeStepFunction := by
  intro s w hf
  cases hd : decode w with
  | ok i =>
    rw [step_of_decode hf hd, exec_eq_wholeStep (wellFormed_of_decode hd), toCell_of_decode hd,
      decodeCell_opc, decodeCell_opd]
  | error e =>
    rw [step_of_decode_error hf hd]
    exact congrArg _ (wholeStep_of_rejected ⟨e, hd⟩ s).symm

end Sys2Proof.Machine
end

section
/-! Frames (R20, R22, R30, R34, R107): which instruction writes which part of the state, which parts no
instruction reads, and the obligations about them, all read off `Effect`. -/

namespace Sys2Proof.Machine

section Writers

variable {s s' : State} {i : Instr} {es : List Event}

theorem mem_of_effect (h : Effect s i s' es) : s'.mem = s.mem := by
  cases h <;> rfl

/-- R20, the row of A. -/
theorem writer_of_a (h : Effect s i s' es) (ha : s'.a ≠ s.a) :
    (∃ v, i = .loadAi v) ∨ i = .swapAb ∨ i = .swapAc ∨ i = .incA := by
  cases h with
  | loadAi v => exact .inl ⟨v, rfl⟩
  | swapAb => exact .inr (.inl rfl)
  | swapAc => exact .inr (.inr (.inl rfl))
  | incA => exact .inr (.inr (.inr rfl))
  | noOp | loadBi | addAb | subAb | cmpAb | overflow | notTaken | taken | outside | reserved | halt =>
    exact absurd rfl ha

/-- R20, the row of B. -/
theorem writer_of_b (h : Effect s i s' es) (hb : s'.b ≠ s.b) : (∃ v, i = .loadBi v) ∨ i = .swapAb := by
  cases h with
  | loadBi v => exact .inl ⟨v, rfl⟩
  | swapAb => exact .inr rfl
  | noOp | loadAi | swapAc | addAb | subAb | cmpAb | incA | overflow | notTaken | taken | outside
  | reserved | halt => exact absurd rfl hb

/-- R20, the row of C. -/
theorem writer_of_c (h : Effect s i s' es) (hc : s'.c ≠ s.c) :
    i = .addAb ∨ i = .subAb ∨ i = .swapAc := by
  cases h with
  | addAb => exact .inl rfl
  | subAb => exact .inr (.inl rfl)
  | swapAc => exact .inr (.inr rfl)
  | noOp | loadAi | loadBi | swapAb | cmpAb | incA | overflow | notTaken | taken | outside | reserved
  | halt => exact absurd rfl hc

/-- R30, the row of `zero`: each writer has an Ok result. -/
theorem writer_of_zero (h : Effect s i s' es) (hzero : s'.zero ≠ s.zero) :
    (i = .addAb ∧ fitsW (s.a + s.b) = true) ∨
      ((i = .subAb ∨ i = .cmpAb) ∧ fitsW (s.a - s.b) = true) := by
  cases h with
  | addAb hfits => exact .inl ⟨rfl, hfits⟩
  | subAb hfits => exact .inr ⟨.inl rfl, hfits⟩
  | cmpAb hfits => exact .inr ⟨.inr rfl, hfits⟩
  | noOp | loadAi | loadBi | swapAb | swapAc | incA | overflow | notTaken | taken | outside | reserved
  | halt => exact absurd rfl hzero

/-- R30, the row of `negative`. -/
theorem writer_of_negative (h : Effect s i s' es) (hnegative : s'.negative ≠ s.negative) :
    (i = .subAb ∨ i = .cmpAb) ∧ fitsW (s.a - s.b) = true := by
  cases h with
  | subAb hfits => exact ⟨.inl rfl, hfits⟩
  | cmpAb hfits => exact ⟨.inr rfl, hfits⟩
  | noOp | loadAi | loadBi | swapAb | swapAc | addAb | incA | overflow | notTaken | taken | outside
  | reserved | halt => exact absurd rfl hnegative

end Writers

theorem mem_of_step {s s' : State} (h : step s = .next s') : s'.mem = s.mem := by
  rcases fetch_cases s with hhalted | ⟨w, hf⟩ | ⟨hrunning, hread⟩
  · obtain rfl : s = s' := eq_of_next (step_of_halted hhalted) h
    rfl
  · rcases cycle_cases hf h with ⟨i, -, -, heffect⟩ | ⟨e, -, rfl⟩
    · exact mem_of_effect heffect
    · rfl
  · nomatch (step_of_outside hrunning hread).symm.trans h

/-- Settles O32: the writers of each register, and no effect writes the image. -/
theorem registersChangeOnlyByTheirWriters : Obligations.RegistersChangeOnlyByTheirWriters := by
  intro s w s' hf hstep
  have hmem : s'.mem = s.mem := mem_of_step hstep
  rcases cycle_cases hf hstep with ⟨i, hd, -, heffect⟩ | ⟨e, -, rfl⟩
  · rw [hd, hmem]
    refine ⟨fun ha => ?_, fun hb => ?_, fun hc => ?_, rfl, fun _ => rfl⟩
    · simpa using writer_of_a heffect ha
    · simpa using writer_of_b heffect hb
    · simpa using writer_of_c heffect hc
  · exact ⟨fun ha => absurd rfl ha, fun hb => absurd rfl hb, fun hc => absurd rfl hc, rfl, fun _ => rfl⟩

/-- Settles O33: the writers of each flag; a fatal stop writes none. -/
theorem flagsChangeOnlyByAddAndSubtract : Obligations.FlagsChangeOnlyByAddAndSubtract := by
  intro s w s' hf hstep
  rcases cycle_cases hf hstep with ⟨i, hd, -, heffect⟩ | ⟨e, -, rfl⟩
  · rw [hd]
    refine ⟨fun hzero => ?_, fun hnegative => ?_⟩
    · simpa using writer_of_zero heffect hzero
    · simpa using writer_of_negative heffect hnegative
  · exact ⟨fun hzero => absurd rfl hzero, fun hnegative => absurd rfl hnegative⟩

/-- R120: the ALU reads A and B alone. -/
theorem exactResult_congr {s t : State} (ha : t.a = s.a) (hb : t.b = s.b) (i : Instr) :
    exactResult t i = exactResult s i := by
  simp only [exactResult, ha, hb]

/-- R130: the conditions of the jumps read the flags alone. -/
theorem takenTarget_congr {s t : State} (hzero : t.zero = s.zero) (hnegative : t.negative = s.negative)
    (i : Instr) : takenTarget i t = takenTarget i s := by
  simp only [takenTarget, hzero, hnegative]

/-- R22: with another value in C an instruction other than SWAP_AC has the same effect, in which C keeps
that value or is written the same. -/
theorem effect_with_c {s t : State} {i : Instr} {es : List Event} (h : Effect s i t es)
    (hi : i ≠ .swapAc) (v : Int) :
    (t.c = s.c ∧ Effect { s with c := v } i { t with c := v } es) ∨
    Effect { s with c := v } i t es := by
  have hresult := exactResult_congr (s := s) (t := { s with c := v }) rfl rfl i
  have htaken := takenTarget_congr (s := s) (t := { s with c := v }) rfl rfl i
  cases h with
  | noOp => exact .inl ⟨rfl, .noOp⟩
  | loadAi x => exact .inl ⟨rfl, .loadAi x⟩
  | loadBi x => exact .inl ⟨rfl, .loadBi x⟩
  | swapAb => exact .inl ⟨rfl, .swapAb⟩
  | swapAc => exact absurd rfl hi
  | addAb hfits => exact .inr (.addAb hfits)
  | subAb hfits => exact .inr (.subAb hfits)
  | cmpAb hfits => exact .inl ⟨rfl, .cmpAb hfits⟩
  | incA hfits => exact .inl ⟨rfl, .incA hfits⟩
  | overflow hx hunfit => exact .inl ⟨rfl, .overflow (hresult.trans hx) hunfit⟩
  | notTaken hj htarget => exact .inl ⟨rfl, .notTaken hj (htaken.trans htarget)⟩
  | taken htarget ht => exact .inl ⟨rfl, .taken (htaken.trans htarget) ht⟩
  | outside htarget ht => exact .inl ⟨rfl, .outside (htaken.trans htarget) ht⟩
  | reserved hslot => exact .inl ⟨rfl, .reserved hslot⟩
  | halt => exact .inl ⟨rfl, .halt⟩

/-- R34, R35: with other values in `halted` and `ERR` an instruction has the same effect, in which each of
the two is kept or written the same. -/
theorem effect_with_halted_err {s t : State} {i : Instr} {es : List Event} (h : Effect s i t es)
    (b : Bool) (e : ErrLatch) :
    (t.halted = s.halted ∧ t.err = s.err ∧
      Effect { s with halted := b, err := e } i { t with halted := b, err := e } es) ∨
    (t.err = s.err ∧ Effect { s with halted := b, err := e } i { t with err := e } es) ∨
    Effect { s with halted := b, err := e } i t es := by
  have hresult := exactResult_congr (s := s) (t := { s with halted := b, err := e }) rfl rfl i
  have htaken := takenTarget_congr (s := s) (t := { s with halted := b, err := e }) rfl rfl i
  cases h with
  | noOp => exact .inl ⟨rfl, rfl, .noOp⟩
  | loadAi x => exact .inl ⟨rfl, rfl, .loadAi x⟩
  | loadBi x => exact .inl ⟨rfl, rfl, .loadBi x⟩
  | swapAb => exact .inl ⟨rfl, rfl, .swapAb⟩
  | swapAc => exact .inl ⟨rfl, rfl, .swapAc⟩
  | addAb hfits => exact .inl ⟨rfl, rfl, .addAb hfits⟩
  | subAb hfits => exact .inl ⟨rfl, rfl, .subAb hfits⟩
  | cmpAb hfits => exact .inl ⟨rfl, rfl, .cmpAb hfits⟩
  | incA hfits => exact .inl ⟨rfl, rfl, .incA hfits⟩
  | overflow hx hunfit => exact .inl ⟨rfl, rfl, .overflow (hresult.trans hx) hunfit⟩
  | notTaken hj htarget => exact .inl ⟨rfl, rfl, .notTaken hj (htaken.trans htarget)⟩
  | taken htarget ht => exact .inl ⟨rfl, rfl, .taken (htaken.trans htarget) ht⟩
  | outside htarget ht => exact .inr (.inr (.outside (htaken.trans htarget) ht))
  | reserved hslot => exact .inr (.inr (.reserved hslot))
  | halt => exact .inr (.inl ⟨rfl, .halt⟩)

/-- Settles O35: the effect with the one value of C is the effect with the other. -/
theorem onlySwapAcReadsC : Obligations.OnlySwapAcReadsC := by
  intro i s v hi
  obtain ⟨t, es, heffect⟩ := exists_effect i s
  obtain ⟨hexec, -⟩ := exec_of_effect heffect
  rcases effect_with_c heffect hi v with ⟨hc, heffect'⟩ | heffect' <;>
    obtain ⟨hexec', -⟩ := exec_of_effect heffect'
  · exact ⟨t, _, hexec, hexec', rfl, .inl ⟨hc, rfl⟩⟩
  · exact ⟨t, _, hexec, hexec', rfl, .inr rfl⟩

/-- Settles O36: the effect with the one `halted` and `ERR` is the effect with the other. -/
theorem haltedAndErrAreNeverRead : Obligations.HaltedAndErrAreNeverRead := by
  intro i s b e
  obtain ⟨t, es, heffect⟩ := exists_effect i s
  obtain ⟨hexec, -⟩ := exec_of_effect heffect
  rcases effect_with_halted_err heffect b e with
    ⟨hhalted, herr, heffect'⟩ | ⟨herr, heffect'⟩ | heffect' <;>
    obtain ⟨hexec', -⟩ := exec_of_effect heffect'
  · exact ⟨t, _, hexec, hexec', rfl, .inl ⟨hhalted, rfl⟩, .inl ⟨herr, rfl⟩⟩
  · exact ⟨t, _, hexec, hexec', rfl, .inr rfl, .inl ⟨herr, rfl⟩⟩
  · exact ⟨t, _, hexec, hexec', rfl, .inr rfl, .inr rfl⟩

/-- R102 to R104: the four instructions of the ALU. -/
theorem exactResult_cases {s : State} {i : Instr} {x : Int} (hx : exactResult s i = some x) :
    (i = .addAb ∧ x = s.a + s.b) ∨ (i = .subAb ∧ x = s.a - s.b) ∨ (i = .incA ∧ x = s.a + 1) ∨
      (i = .cmpAb ∧ x = s.a - s.b) := by
  cases i with
  | addAb | subAb | incA | cmpAb => simpa [exactResult, eq_comm] using hx
  | noOp | loadAi | loadBi | jump | jumpEq | jumpGt | jumpLt | swapAb | swapAc | reserved13 | reserved14
  | halt => nomatch hx

/-- R149: Overflow is an event of an ALU instruction whose exact result does not fit, and then its only
one. -/
theorem overflow_mem_effect {s s' : State} {i : Instr} {es : List Event} {kind : OpIndex}
    (h : Effect s i s' es) (hmem : .overflow kind ∈ es) :
    ∃ x, exactResult s i = some x ∧ fitsW x = false ∧ kind = i.toCell.opc ∧ es = [.overflow kind] := by
  cases h with
  | overflow hx hunfit =>
    obtain rfl : kind = _ := Event.overflow.inj (List.mem_singleton.mp hmem)
    exact ⟨_, hx, hunfit, rfl, rfl⟩
  | noOp | loadAi | loadBi | swapAb | swapAc | addAb | subAb | cmpAb | incA | notTaken | taken | outside
  | reserved | halt => simp at hmem

/-- Settles O28: the meaning of the four instructions when the exact result does not fit, and the only
effect with an Overflow event is theirs. -/
theorem overflowChangesOnlyThePc : Obligations.OverflowChangesOnlyThePc := by
  refine ⟨fun s h => exec_addAb_of_overflow (aluResult_overflow (by omega)),
    fun s h => ⟨exec_subAb_of_overflow (aluResult_overflow (by omega)),
      exec_cmpAb_of_overflow (aluResult_overflow (by omega))⟩,
    fun s h => exec_incA_of_overflow (aluResult_overflow (by omega)),
    fun s w kind hf => ⟨fun hmem => ?reported, fun ⟨hevents, _⟩ => by simp [hevents]⟩⟩
  case reported =>
    obtain ⟨s', hstep⟩ := step_next_of_fetches hf
    rcases cycle_cases hf hstep with ⟨i, hd, -, heffect⟩ | ⟨e, hd, -⟩
    · have hevents := cycleEvents_of_decode hf hd
      have hmem' : .overflow kind ∈ execEvents i s := by simpa [hevents] using hmem
      obtain ⟨x, hx, hunfit, rfl, hes⟩ := overflow_mem_effect heffect hmem'
      rw [fitsW_false_iff] at hunfit
      refine ⟨by rw [hevents, hes], ?_⟩
      rcases exactResult_cases hx with ⟨rfl, rfl⟩ | ⟨rfl, rfl⟩ | ⟨rfl, rfl⟩ | ⟨rfl, rfl⟩
      · exact .inl ⟨hd, rfl, by omega⟩
      · exact .inr (.inl ⟨hd, rfl, by omega⟩)
      · exact .inr (.inr (.inl ⟨hd, rfl, by omega⟩))
      · exact .inr (.inr (.inr ⟨hd, rfl, by omega⟩))
    · simp [cycleEvents_of_decode_error hf hd] at hmem

end Sys2Proof.Machine
end

section
/-! Fatal stops and the ends of a run (R162 to R170): when a Cycle raises a cause, what the Cycle is then,
and the obligations about the error latch and its event. -/

namespace Sys2Proof.Machine

/-- R162 to R167: the Cycle of the word `w` raises the cause. -/
inductive Raises (s : State) (w : CellWord) : ErrCause → Prop
  | invalidOpcode (hslot : opcField w = 13#4 ∨ opcField w = 14#4) : Raises s w .invalidOpcode
  | invalidOperand {e : DecodeError} (hd : decode w = .error e) : Raises s w .invalidOperand
  | invalidAddress {i : Instr} {t : Int} (hd : decode w = .ok i) (htarget : takenTarget i s = some t)
      (ht : ¬(0 ≤ t ∧ t < s.mem.size)) : Raises s w .invalidAddress

theorem ne_none_of_raises {s : State} {w : CellWord} {cause : ErrCause} (h : Raises s w cause) :
    cause ≠ .none := by
  cases h <;> decide

/-- R168: a Cycle that raises a cause is the stop with its cell. -/
theorem step_of_raises {s : State} {w : CellWord} {cause : ErrCause} (hf : Fetches s w)
    (h : Raises s w cause) : step s = .next (stopped cause (opcField w) (operandOf w) s) := by
  cases h with
  | invalidOpcode hslot => exact step_of_reserved hf hslot
  | invalidOperand hd => exact step_of_decode_error hf hd
  | invalidAddress hd htarget ht =>
    have hcell : Instr.toCell _ = decodeCell w := toCell_of_decode hd
    obtain ⟨hexec, -⟩ := exec_of_effect (.outside htarget ht)
    rw [step_of_decode hf hd, hexec, hcell, decodeCell_opc, decodeCell_opd]

/-- R149: and its Error event follows the Fetch event. -/
theorem cycleEvents_of_raises {s : State} {w : CellWord} {cause : ErrCause} (hf : Fetches s w)
    (h : Raises s w cause) : cycleEvents s =
      [.fetch s.pc (opcField w) (operandOf w), .error cause s.pc (opcField w) (operandOf w)] := by
  cases h with
  | invalidOpcode hslot =>
    rcases hslot with h13 | h14
    · rw [cycleEvents_of_decode hf (decode_of_opcField_13 h13), h13]
      rfl
    · rw [cycleEvents_of_decode hf (decode_of_opcField_14 h14), h14]
      rfl
  | invalidOperand hd => exact cycleEvents_of_decode_error hf hd
  | invalidAddress hd htarget ht =>
    have hcell : Instr.toCell _ = decodeCell w := toCell_of_decode hd
    obtain ⟨-, hevents⟩ := exec_of_effect (.outside htarget ht)
    rw [cycleEvents_of_decode hf hd, hevents, hcell, decodeCell_opc, decodeCell_opd]

/-- R34, R35: an instruction that raises nothing leaves `ERR` alone and sets `halted` only as HALT. -/
theorem effect_of_no_raise {s s' : State} {w : CellWord} {i : Instr} {es : List Event}
    (h : Effect s i s' es) (hd : decode w = .ok i) (hno : ∀ cause, ¬Raises s w cause) :
    s'.err = s.err ∧ (s'.halted = s.halted ∨ i = .halt) ∧ ∀ e ∈ es, e.isError = false := by
  have hcell : i.toCell = decodeCell w := toCell_of_decode hd
  cases h with
  | noOp | loadAi | loadBi | swapAb | swapAc | addAb | subAb | cmpAb | incA | overflow | notTaken
  | taken =>
    exact ⟨rfl, .inl rfl, by simp [Event.isError]⟩
  | halt => exact ⟨rfl, .inr rfl, by simp [Event.isError]⟩
  | outside htarget ht => exact absurd (.invalidAddress hd htarget ht) (hno _)
  | reserved hslot =>
    rw [hcell, decodeCell_opc] at hslot
    exact absurd (.invalidOpcode hslot) (hno _)

/-- R161, R168: a Cycle raises a cause and is its stop, or raises none and leaves `ERR` alone. -/
theorem cycle_stops_or_not {s s' : State} {w : CellWord} (hf : Fetches s w)
    (hstep : step s = .next s') :
    (∃ cause, Raises s w cause ∧ s' = stopped cause (opcField w) (operandOf w) s) ∨
    ((∀ cause, ¬Raises s w cause) ∧ s'.err = s.err ∧ (s'.halted = true → decode w = .ok .halt) ∧
      ∀ e ∈ cycleEvents s, e.isError = false) := by
  by_cases hraises : ∃ cause, Raises s w cause
  · obtain ⟨cause, h⟩ := hraises
    exact .inl ⟨cause, h, eq_of_next hstep (step_of_raises hf h)⟩
  · have hno : ∀ cause, ¬Raises s w cause := fun cause h => hraises ⟨cause, h⟩
    rcases cycle_cases hf hstep with ⟨i, hd, -, heffect⟩ | ⟨e, hd, -⟩
    · obtain ⟨herr, hhalted, hevents⟩ := effect_of_no_raise heffect hd hno
      refine .inr ⟨hno, herr, fun h => ?_, ?_⟩
      · rcases hhalted with hkept | rfl
        · simp [hkept, hf.1] at h
        · exact hd
      · rw [cycleEvents_of_decode hf hd]
        exact List.forall_mem_cons.mpr ⟨rfl, hevents⟩
    · exact absurd (.invalidOperand hd) (hno _)

/-- R162: the cause held after a Cycle is the one it raises. -/
theorem cause_eq_iff_raises {s s' : State} {w : CellWord} {cause : ErrCause} (hf : Fetches s w)
    (hnone : s.err.cause = .none) (hstep : step s = .next s') (hcause : cause ≠ .none) :
    s'.err.cause = cause ↔ Raises s w cause := by
  constructor
  · rintro rfl
    rcases cycle_stops_or_not hf hstep with ⟨cause, h, rfl⟩ | ⟨-, herr, -⟩
    · exact h
    · exact absurd (herr ▸ hnone) hcause
  · intro h
    obtain rfl := eq_of_next hstep (step_of_raises hf h)
    rfl

/-- Settles O37: the only Cycles that leave a cause in `ERR` are the stops. -/
theorem fatalStopIsPrecise : Obligations.FatalStopIsPrecise := by
  intro s w s' hf hnone hstep hcause
  rcases cycle_stops_or_not hf hstep with ⟨cause, -, rfl⟩ | ⟨-, herr, -⟩
  · rfl
  · exact absurd (herr ▸ hnone) hcause

/-- Settles O38, by the three ways to raise a cause. -/
theorem causeOfAFatalStop : Obligations.CauseOfAFatalStop := by
  intro s w s' hf hnone hstep
  refine ⟨?opcode, ?operand, ?address⟩
  case opcode =>
    rw [cause_eq_iff_raises hf hnone hstep (by decide)]
    exact ⟨fun | .invalidOpcode hslot => hslot, .invalidOpcode⟩
  case operand =>
    rw [cause_eq_iff_raises hf hnone hstep (by decide)]
    exact ⟨fun | .invalidOperand hd => ⟨_, hd⟩, fun ⟨_, hd⟩ => .invalidOperand hd⟩
  case address =>
    rw [cause_eq_iff_raises hf hnone hstep (by decide)]
    exact ⟨fun | .invalidAddress hd htarget ht => ⟨_, _, hd, htarget, ht⟩,
      fun ⟨_, _, hd, htarget, ht⟩ => .invalidAddress hd htarget ht⟩

/-- Settles O39: a stop without a cause is HALT's, and a stop with one is fatal. -/
theorem blockStopsOnlyByHaltOrFatalError : Obligations.BlockStopsOnlyByHaltOrFatalError := by
  intro s w s' hf hnone hstep
  refine ⟨⟨fun ⟨hhalted, hclean⟩ => ?onlyHalt, fun hd => ?halts⟩,
    fun ⟨_, hcause⟩ => hcause, fun hcause => ⟨?latched, hcause⟩⟩
  case onlyHalt =>
    rcases cycle_stops_or_not hf hstep with ⟨cause, h, rfl⟩ | ⟨-, -, honly, -⟩
    · exact absurd hclean (ne_none_of_raises h)
    · exact honly hhalted
  case halts =>
    rw [step_of_decode hf hd, exec_halt] at hstep
    cases hstep
    exact ⟨rfl, hnone⟩
  case latched =>
    rw [fatalStopIsPrecise s w s' hf hnone hstep hcause]
    rfl

/-- Settles O52: the Error event of a Cycle that raises a cause has the values of its stop, and a Cycle
that raises none has no Error event and latches nothing. -/
theorem errorEventTellsTheLatch : Obligations.ErrorEventTellsTheLatch := by
  intro s w s' hf hnone hstep
  rcases cycle_stops_or_not hf hstep with ⟨cause, h, rfl⟩ | ⟨-, herr, -, hevents⟩
  · have hlatched := ne_none_of_raises h
    refine ⟨fun cause' addr opc opd => ?_, fun _ => cycleEvents_of_raises hf h⟩
    rw [cycleEvents_of_raises hf h]
    constructor
    · intro hmem
      obtain ⟨rfl, rfl, rfl, rfl⟩ : cause' = cause ∧ addr = s.pc ∧ opc = opcField w ∧
          opd = operandOf w := by simpa using hmem
      exact ⟨rfl, hlatched⟩
    · rintro ⟨heq, -⟩
      obtain ⟨rfl, rfl, rfl, rfl⟩ := ErrLatch.mk.inj heq
      simp
  · refine ⟨fun cause addr opc opd => ⟨fun hmem => (nomatch hevents _ hmem), ?_⟩,
      fun hcause => absurd (herr ▸ hnone) hcause⟩
    rintro ⟨heq, hcause⟩
    rw [← herr, heq] at hnone
    exact absurd hnone hcause

end Sys2Proof.Machine
end

section
/-! Runs (R45, R88, R89) and the invariant of R37: the rules of a run, the step lemma of the invariant, and
the obligations about reset, halted blocks and clock edges. -/

namespace Sys2Proof.Machine

/-- A run that answers a next state has taken its first step to one. -/
theorem run_succ_inv {n : Nat} {s s' : State} (h : core.run (n + 1) s = .next s') :
    ∃ t, step s = .next t ∧ core.run n t = .next s' := by
  cases hstep : step s with
  | next t => exact ⟨t, rfl, (run_succ hstep n).symm.trans h⟩
  | fault f => exact nomatch (run_succ_fault hstep n).symm.trans h
  | refused f => exact nomatch (run_succ_refused hstep n).symm.trans h

/-- What every step keeps, every run keeps. -/
theorem run_keeps {P : State → Prop} (hkeeps : ∀ s s', P s → step s = .next s' → P s') (n : Nat)
    {s s' : State} (hs : P s) (h : core.run n s = .next s') : P s' := by
  induction n generalizing s with
  | zero => exact Host.Outcome.next.inj h ▸ hs
  | succ n ih =>
    obtain ⟨t, hstep, hrest⟩ := run_succ_inv h
    exact ih (hkeeps s t hs hstep) hrest

/-- A run of `m + n` steps is the run of `n` from where the run of `m` ends. -/
theorem run_add {m : Nat} {s t : State} (h : core.run m s = .next t) (n : Nat) :
    core.run (m + n) s = core.run n t := by
  induction m generalizing s with
  | zero => rw [Host.Outcome.next.inj h, Nat.zero_add]
  | succ m ih =>
    obtain ⟨u, hstep, hrest⟩ := run_succ_inv h
    rw [Nat.add_right_comm, run_succ hstep, ih hrest]

theorem run_of_step_self {s : State} (h : step s = .next s) (n : Nat) : core.run n s = .next s := by
  induction n with
  | zero => rfl
  | succ n ih => rw [run_succ h, ih]

/-- R169: a halted block holds its state. -/
theorem run_of_halted {s : State} (h : s.halted = true) (n : Nat) : core.run n s = .next s :=
  run_of_step_self (step_of_halted h) n

theorem cycleEvents_of_halted {s : State} (h : s.halted = true) : cycleEvents s = [] := if_pos h

/-- R131: a jump to its own cell leaves the state as it is. -/
theorem step_of_jump_to_self {s : State} {w : CellWord} (hf : Fetches s w)
    (hd : decode w = .ok (.jump s.pc)) : step s = .next s := by
  have hin : s.pc < s.mem.size := read_some_lt hf.2
  rw [step_of_decode hf hd, exec_jump, setPc_valid (by omega), Int.toNat_natCast]

section Invariant

variable {s : State}

theorem inv_afterFetch (h : StateInv s) : StateInv (afterFetch s) :=
  { h with pc_in_image := advance_lt h.pc_in_image }

/-- R35, R168: a stop latches a cause with an address of the image and an operand of a cell. -/
theorem inv_stopped (h : StateInv s) {cause : ErrCause} (hcause : cause ≠ .none) (opc : OpIndex)
    {opd : Option Int} (hopd : optEncodable opd = true) : StateInv (stopped cause opc opd s) :=
  { inv_afterFetch h with
    err_halted := fun _ => rfl
    err_wf := ⟨fun hnone => absurd hnone hcause, h.pc_in_image, hopd⟩ }

/-- R37: a register is written with a load's value of `D_W`, with an Ok result, or with a register's
value; the pc with an address of the image. -/
theorem effect_keeps_inv {s' : State} {i : Instr} {es : List Event} (heffect : Effect s i s' es)
    (hwf : i.wellFormed = true) (h : StateInv s) : StateInv s' := by
  have hfetch := inv_afterFetch h
  cases heffect with
  | noOp | overflow | notTaken => exact hfetch
  | loadAi v => exact { hfetch with a_fits := hwf }
  | loadBi v => exact { hfetch with b_fits := hwf }
  | swapAb => exact { hfetch with a_fits := h.b_fits, b_fits := h.a_fits }
  | swapAc => exact { hfetch with a_fits := h.c_fits, c_fits := h.a_fits }
  | addAb hfits | subAb hfits => exact { hfetch with c_fits := hfits }
  | cmpAb => exact { hfetch with }
  | incA hfits => exact { hfetch with a_fits := hfits }
  | taken htarget ht => exact { h with pc_in_image := show Int.toNat _ < s.mem.size by omega }
  | outside => exact inv_stopped h (by decide) _ (optEncodable_toCell hwf)
  | reserved => exact inv_stopped h (by decide) _ (optEncodable_toCell hwf)
  | halt => exact { hfetch with err_halted := fun _ => rfl }

theorem step_keeps_inv {s' : State} (h : StateInv s) (hstep : step s = .next s') : StateInv s' := by
  rcases fetch_cases s with hhalted | ⟨w, hf⟩ | ⟨hrunning, hread⟩
  · exact eq_of_next (step_of_halted hhalted) hstep ▸ h
  · rcases cycle_cases hf hstep with ⟨i, hd, -, heffect⟩ | ⟨e, -, rfl⟩
    · exact effect_keeps_inv heffect (wellFormed_of_decode hd) h
    · exact inv_stopped h (by decide) _ (operandOf_encodable w)
  · exact nomatch (step_of_outside hrunning hread).symm.trans hstep

/-- R37, R45: a running block that meets the invariant fetches a cell of the image. -/
theorem fetches_of_inv (h : StateInv s) (hrunning : s.halted = false) : ∃ w, Fetches s w :=
  ⟨_, hrunning, read_of_lt h.pc_in_image⟩

theorem step_next_of_inv (h : StateInv s) : ∃ s', step s = .next s' := by
  cases hhalted : s.halted with
  | true => exact ⟨s, step_of_halted hhalted⟩
  | false =>
    obtain ⟨w, hf⟩ := fetches_of_inv h hhalted
    exact step_next_of_fetches hf

/-- R45, R88: progress and preservation, along a run. -/
theorem run_next_of_inv (n : Nat) (h : StateInv s) : ∃ s', core.run n s = .next s' ∧ StateInv s' := by
  induction n generalizing s with
  | zero => exact ⟨s, rfl, h⟩
  | succ n ih =>
    obtain ⟨t, hstep⟩ := step_next_of_inv h
    rw [run_succ hstep]
    exact ih (step_keeps_inv h hstep)

end Invariant

/-- R37, R38: reset in an image within the bounds of R8. -/
theorem inv_resetWith {r : RegReset} {m : Memory} (ha : fitsW r.a = true) (hb : fitsW r.b = true)
    (hc : fitsW r.c = true) (hmem : m.wf) (hpos : 1 ≤ m.size) (hbound : m.size ≤ 2 ^ Config.W) :
    StateInv (State.resetWith r m) where
  a_fits := ha
  b_fits := hb
  c_fits := hc
  pc_in_image := hpos
  size_bound := hbound
  err_halted := fun hcause => absurd rfl hcause
  err_wf := ⟨fun _ => rfl, hpos, rfl⟩
  mem_wf := hmem

/-- Settles O43: what each effect writes stays in its domain. -/
theorem stepKeepsTheInvariant : Obligations.StepKeepsTheInvariant :=
  fun _ _ => step_keeps_inv

/-- Settles O44, by induction on the number of steps. -/
theorem runNeverFaults : Obligations.RunNeverFaults :=
  fun n _ => run_next_of_inv n

/-- Settles O26: the meaning of HALT, the steps of a halted block, and slot 15 of the decoder, which
forbids an operand. -/
theorem haltSetsHalted : Obligations.HaltSetsHalted := by
  refine ⟨by decide, exec_halt, fun n s s' h => ?after, takesNoOperand_halt⟩
  case after =>
    obtain rfl := eq_of_next (exec_halt s) h
    exact ⟨run_of_halted rfl n, cycleEvents_of_halted rfl, fun hlast => if_pos hlast,
      fun hnone => ⟨rfl, hnone⟩⟩

/-- Settles O34: no step writes the image, so no run does. -/
theorem noRunWritesTheImage : Obligations.NoRunWritesTheImage := by
  intro n s s' h
  exact run_keeps (P := fun t => t.mem = s.mem)
    (fun _ _ ht hstep => (mem_of_step hstep).trans ht) n rfl h

/-- Settles O40. A halted block's step is the identity, and reset sets both fields. -/
theorem haltedIsTerminal : Obligations.HaltedIsTerminal :=
  ⟨fun n _ h => run_of_halted h n, fun _ _ => ⟨rfl, rfl⟩⟩

/-- Settles O46: the step is the identity, so the run is. -/
theorem jumpToSelfNeverHalts : Obligations.JumpToSelfNeverHalts :=
  fun n _ _ hf hd => run_of_step_self (step_of_jump_to_self hf hd) n

/-- Settles O41, by the definition of reset; the unlisted cell of the empty program reads as HALT. -/
theorem resetLeavesTheSpecsValues : Obligations.ResetLeavesTheSpecsValues :=
  ⟨fun _ _ => rfl, fun _ _ => rfl, rfl, rfl⟩

/-- Settles O42; the empty program has SIZE 1 and lists no cell. -/
theorem resetMeetsTheInvariant : Obligations.ResetMeetsTheInvariant :=
  ⟨fun _ _ => inv_resetWith,
    inv_resetWith (by decide) (by decide) (by decide) Memory.empty_wf (by decide) (by decide)⟩

theorem clockEdge_idle (r : RegReset) (s : State) : clockEdge r false false s = .next s := rfl

theorem clockEdge_enabled (r : RegReset) (s : State) : clockEdge r false true s = step s := rfl

theorem clockEdge_of_halted {s : State} (h : s.halted = true) (r : RegReset) (stepEn : Bool) :
    clockEdge r false stepEn s = .next s := by
  cases stepEn with
  | false => exact clockEdge_idle r s
  | true => exact (clockEdge_enabled r s).trans (step_of_halted h)

/-- Settles O48: an enabled edge of a running block is the step, which is the whole-step function. -/
theorem clockEdgeRules : Obligations.ClockEdgeRules :=
  ⟨fun _ _ _ => rfl, clockEdge_idle, fun r stepEn _ h => clockEdge_of_halted h r stepEn,
    fun r s w hf => (clockEdge_enabled r s).trans (stepIsTheWholeStepFunction s w hf)⟩

theorem pacedRun_idle (r : RegReset) (rest : List Bool) (s : State) :
    pacedRun r (false :: rest) s = pacedRun r rest s := by
  rw [pacedRun, clockEdge_idle]

/-- Settles O49, by induction on the pattern: an idle edge changes nothing, and an enabled edge is one step
of the run, which it ends by the same fault. -/
theorem pacingNeverChangesTheResult : Obligations.PacingNeverChangesTheResult := by
  intro r pattern
  induction pattern with
  | nil => exact fun s => rfl
  | cons stepEn rest ih =>
    intro s
    cases stepEn with
    | false => rw [pacedRun_idle, ih, List.count_cons_of_ne (by decide)]
    | true =>
      rw [pacedRun, clockEdge_enabled, List.count_cons_self]
      cases hstep : step s with
      | next t => exact (ih t).trans (run_succ hstep _).symm
      | fault f => exact (run_succ_fault hstep _).symm
      | refused f => exact (run_succ_refused hstep _).symm

end Sys2Proof.Machine
end

section
/-! Straight-line runs (R89, R184): a Cycle without a jump moves to the next cell, so a run without jumps
reaches the appended HALT or stops before it. -/

namespace Sys2Proof.Machine

/-- R89: a cell that neither jumps nor stops. -/
def StraightCell (w : CellWord) : Prop :=
  ∃ i, decode w = .ok i ∧ isJumpInstr i = false ∧ i ≠ .halt ∧ opcField w ≠ 13#4 ∧ opcField w ≠ 14#4

/-- A run and one more step. -/
theorem run_snoc {n : Nat} {s t u : State} (h : core.run n s = .next t) (hstep : step t = .next u) :
    core.run (n + 1) s = .next u := by
  rw [run_add h, run_succ hstep, run_zero]

theorem step_of_halt {s : State} (hf : Fetches s (encode .halt)) :
    step s = .next { afterFetch s with halted := true } :=
  (step_of_decode hf (decode_encode rfl)).trans (exec_halt s)

/-- R83: the pc after a Cycle that is no jump. -/
theorem pc_of_no_jump {s s' : State} {w : CellWord} (hf : Fetches s w)
    (hjump : ∀ i, decode w = .ok i → isJumpInstr i = false) (hstep : step s = .next s') :
    s'.pc = advance s.mem.size s.pc := by
  obtain ⟨-, hadvance⟩ := pcAfterACycle s w s' hf hstep
  refine hadvance fun i t hd htarget => ?_
  simp [takenTarget_of_not_jump (hjump i hd)] at htarget

/-- R89, by induction on the number of cells left: each Cycle halts or leaves one cell fewer. -/
theorem halts_within_cells_left (d : Nat) {s : State} (hd : s.mem.size - s.pc = d) (hinv : StateInv s)
    (hrunning : s.halted = false) (hlast : s.mem.read (s.mem.size - 1) = some (encode .halt))
    (hjump : ∀ k w i, s.pc ≤ k → s.mem.read k = some w → decode w = .ok i → isJumpInstr i = false) :
    ∃ n s', n ≤ d ∧ core.run n s = .next s' ∧ State.halted s' = true := by
  have hin := hinv.pc_in_image
  induction d generalizing s with
  | zero => omega
  | succ d ih =>
    by_cases hpc : s.pc = s.mem.size - 1
    · exact ⟨1, _, by omega, run_succ (step_of_halt ⟨hrunning, hpc ▸ hlast⟩) 0, rfl⟩
    · obtain ⟨w, hf⟩ := fetches_of_inv hinv hrunning
      obtain ⟨t, hstep⟩ := step_next_of_inv hinv
      cases hhalted : t.halted with
      | true => exact ⟨1, t, by omega, run_succ hstep 0, hhalted⟩
      | false =>
        have hmem := mem_of_step hstep
        have htpc : t.pc = s.pc + 1 := by
          rw [pc_of_no_jump hf (fun i => hjump s.pc w i le_rfl hf.2) hstep, advance_of_ne_last hpc]
        obtain ⟨n, s', hn, hrun, hend⟩ := ih (s := t) (by rw [hmem]; omega) (step_keeps_inv hinv hstep)
          hhalted (by rw [hmem]; exact hlast)
          (fun k w i hk hread => hjump k w i (by omega) (hmem ▸ hread)) (by rw [hmem]; omega)
        exact ⟨n + 1, s', by omega, (run_succ hstep n).trans hrun, hend⟩

/-- R89: a cell that neither jumps nor stops leaves the block running, at the next address. -/
theorem step_of_straightCell {s : State} {w : CellWord} (hf : Fetches s w) (hw : StraightCell w) :
    ∃ s', step s = .next s' ∧ s'.halted = false ∧ s'.err = s.err ∧ s'.pc = advance s.mem.size s.pc := by
  obtain ⟨i, hd, hjump, hhalt, h13, h14⟩ := hw
  obtain ⟨s', hstep⟩ := step_next_of_fetches hf
  have hpc : s'.pc = advance s.mem.size s.pc := by
    refine pc_of_no_jump hf (fun j hj => ?_) hstep
    obtain rfl : i = j := Except.ok.inj (hd.symm.trans hj)
    exact hjump
  rcases cycle_stops_or_not hf hstep with ⟨cause, hraises, -⟩ | ⟨-, herr, hhalted, -⟩
  · cases hraises with
    | invalidOpcode hslot => exact absurd hslot (by simp [h13, h14])
    | invalidOperand he => exact nomatch hd.symm.trans he
    | invalidAddress hi htarget =>
      obtain rfl := Except.ok.inj (hd.symm.trans hi)
      simp [takenTarget_of_not_jump hjump] at htarget
  · refine ⟨s', hstep, ?_, herr, hpc⟩
    cases h : s'.halted with
    | false => rfl
    | true => exact absurd (Except.ok.inj (hd.symm.trans (hhalted h))) hhalt

/-- R89: before the last cell each step executes one cell, in order. -/
theorem run_of_straightCells {s : State} (hrunning : s.halted = false)
    (hcells : ∀ k w, s.pc ≤ k → k < s.mem.size - 1 → s.mem.read k = some w → StraightCell w)
    (n : Nat) (hn : n < s.mem.size - s.pc) :
    ∃ t, core.run n s = .next t ∧ State.pc t = s.pc + n ∧ State.halted t = false ∧
      State.err t = s.err ∧ State.mem t = s.mem := by
  induction n with
  | zero => exact ⟨s, rfl, rfl, hrunning, rfl, rfl⟩
  | succ n ih =>
    obtain ⟨t, hrun, hpc, hhalted, herr, hmem⟩ := ih (by omega)
    have hread : t.mem.read t.pc = some _ := read_of_lt (by rw [hmem, hpc]; omega)
    obtain ⟨u, hstep, huhalted, huerr, hupc⟩ := step_of_straightCell ⟨hhalted, hread⟩
      (hcells t.pc _ (by omega) (by omega) (hmem ▸ hread))
    refine ⟨u, run_snoc hrun hstep, ?_, huhalted, huerr.trans herr, (mem_of_step hstep).trans hmem⟩
    rw [hupc, hmem, hpc, advance_of_ne_last (by omega)]
    rfl

/-- R35, R37: the error latch of a running block is empty. -/
theorem cause_of_running {s : State} (hinv : StateInv s) (hrunning : s.halted = false) :
    s.err.cause = .none := by
  by_contra hcause
  rw [hinv.err_halted hcause] at hrunning
  cases hrunning

/-- Settles O47, by induction on the cells left. -/
theorem straightLineRunHalts : Obligations.StraightLineRunHalts :=
  fun _ => halts_within_cells_left _ rfl

/-- Settles O59: the straight cells are executed in order up to the last cell, whose HALT is the normal
stop and whose advance is to 0. -/
theorem straightLineRunReachesTheAppendedHalt : Obligations.StraightLineRunReachesTheAppendedHalt := by
  intro s hinv hrunning hlast hcells
  have hin := hinv.pc_in_image
  have hruns := run_of_straightCells hrunning hcells
  refine ⟨fun n hn => ?before, ?last⟩
  case before =>
    obtain ⟨t, hrun, hpc, hhalted, -⟩ := hruns n hn
    exact ⟨t, hrun, hpc, hhalted⟩
  case last =>
    obtain ⟨t, hrun, hpc, hhalted, herr, hmem⟩ := hruns (s.mem.size - 1 - s.pc) (by omega)
    have htpc : State.pc t = (State.mem t).size - 1 := by rw [hpc, hmem]; omega
    have hstep := step_of_halt (s := t) ⟨hhalted, by rw [htpc, hmem]; exact hlast⟩
    have hsteps : s.mem.size - s.pc = s.mem.size - 1 - s.pc + 1 := by omega
    rw [hsteps]
    have hclean : (State.err t).cause = .none := herr ▸ cause_of_running hinv hrunning
    exact ⟨_, run_snoc hrun hstep, ⟨rfl, hclean⟩, if_pos htpc⟩

end Sys2Proof.Machine
end

section
/-! The trace of a run (R146 to R149): it is the traces of its steps in order, and tells the final state but
for the flags. -/

namespace Sys2Proof.Machine

/-- The state with the flags of another, which is what a trace leaves open. -/
def State.withFlagsOf (s flags : State) : State :=
  { s with zero := flags.zero, negative := flags.negative }

theorem replayEvent_withFlagsOf (s flags : State) (e : Event) :
    replayEvent (s.withFlagsOf flags) e = (replayEvent s e).withFlagsOf flags := by
  cases e with
  | regWrite r v => cases r <;> rfl
  | fetch | jumpTaken | halt | overflow | error => rfl

/-- Events neither read nor write the flags. -/
theorem replay_withFlagsOf (es : List Event) (s flags : State) :
    replay es (s.withFlagsOf flags) = (replay es s).withFlagsOf flags := by
  induction es generalizing s with
  | nil => rfl
  | cons e es ih =>
    calc replay es (replayEvent (s.withFlagsOf flags) e)
        = replay es ((replayEvent s e).withFlagsOf flags) := by rw [replayEvent_withFlagsOf]
      _ = (replay es (replayEvent s e)).withFlagsOf flags := ih _

/-- R148, R149: the events of the execute part tell its effect, from the state after the fetch on. -/
theorem replay_effect {s s' : State} {i : Instr} {es : List Event} (h : Effect s i s' es) :
    s' = (replay es (afterFetch s)).withFlagsOf s' := by
  cases h <;> rfl

/-- R147: the Fetch event tells the pc's advance. -/
theorem replay_fetch (s : State) (opc : OpIndex) (opd : Option Int) (es : List Event) :
    replay (.fetch s.pc opc opd :: es) s = replay es (afterFetch s) := rfl

theorem replay_cycleEvents {s s' : State} (hstep : step s = .next s') :
    s' = (replay (cycleEvents s) s).withFlagsOf s' := by
  rcases fetch_cases s with hhalted | ⟨w, hf⟩ | ⟨hrunning, hread⟩
  · obtain rfl := eq_of_next (step_of_halted hhalted) hstep
    rw [cycleEvents_of_halted hhalted]
    rfl
  · rcases cycle_cases hf hstep with ⟨i, hd, -, heffect⟩ | ⟨e, hd, rfl⟩
    · rw [cycleEvents_of_decode hf hd, replay_fetch]
      exact replay_effect heffect
    · rw [cycleEvents_of_decode_error hf hd]
      rfl
  · exact nomatch (step_of_outside hrunning hread).symm.trans hstep

theorem traceOf_succ {s t : State} (hstep : step s = .next t) (n : Nat) :
    traceOf (n + 1) s = cycleEvents s ++ traceOf n t := by
  rw [traceOf, hstep]

theorem traceOf_one (s : State) : traceOf 1 s = cycleEvents s := by
  cases hstep : step s with
  | next t => rw [traceOf_succ hstep, traceOf, List.append_nil]
  | fault | refused => rw [traceOf, hstep]

theorem traceOf_add {m : Nat} {s t : State} (h : core.run m s = .next t) (n : Nat) :
    traceOf (m + n) s = traceOf m s ++ traceOf n t := by
  induction m generalizing s with
  | zero =>
    obtain rfl := Host.Outcome.next.inj h
    rw [Nat.zero_add, traceOf, List.nil_append]
  | succ m ih =>
    obtain ⟨u, hstep, hrest⟩ := run_succ_inv h
    rw [Nat.add_right_comm, traceOf_succ hstep, traceOf_succ hstep, ih hrest, List.append_assoc]

theorem replay_traceOf (n : Nat) {s s' : State} (h : core.run n s = .next s') :
    s' = (replay (traceOf n s) s).withFlagsOf s' := by
  induction n generalizing s with
  | zero =>
    obtain rfl := Host.Outcome.next.inj h
    rfl
  | succ n ih =>
    obtain ⟨t, hstep, hrest⟩ := run_succ_inv h
    rw [traceOf_succ hstep, replay_append]
    calc s' = (replay (traceOf n t) t).withFlagsOf s' := ih hrest
      _ = (replay (traceOf n t) ((replay (cycleEvents s) s).withFlagsOf t)).withFlagsOf s' :=
        congrArg (fun u => (replay (traceOf n t) u).withFlagsOf s') (replay_cycleEvents hstep)
      _ = ((replay (traceOf n t) (replay (cycleEvents s) s)).withFlagsOf t).withFlagsOf s' := by
        rw [replay_withFlagsOf]
      _ = (replay (traceOf n t) (replay (cycleEvents s) s)).withFlagsOf s' := rfl

/-- Settles O53: the trace splits as the run does, and replaying one Cycle's events, flags aside, is its
step. -/
theorem traceReplaysToTheFinalState : Obligations.TraceReplaysToTheFinalState :=
  ⟨traceOf_one, fun _ n _ _ h => traceOf_add h n, fun n _ _ => replay_traceOf n⟩

end Sys2Proof.Machine
end

section
/-! The image (R184) and the ports (R9, R141 to R150): the image reads as its words and the appended HALT,
the ports hold what they show, and the trace outputs are the events. -/

namespace Sys2Proof.Machine

/-- R184: a word that is not listed is the one that an unlisted address reads as. -/
theorem lookupCell_listCells (words : List CellWord) (p k : Nat) :
    lookupCell (listCells p words) (p + k) = words[k]?.getD haltWord := by
  induction words generalizing p k with
  | nil => rfl
  | cons w rest ih =>
    have hrest : ∀ x ∈ listCells (p + 1) rest, x.1 ≠ p := fun x hx => by
      obtain ⟨-, hlow, -⟩ := mem_listCells hx
      omega
    have hnext : ∀ j, lookupCell (listCells (p + 1) rest) (p + (j + 1)) = rest[j]?.getD haltWord :=
      fun j => by rw [← ih (p + 1) j]; congr 1; omega
    cases k with
    | zero =>
      by_cases hw : w = haltWord <;> simp [listCells, lookupCell, hw, lookupCell_unlisted _ p hrest]
    | succ j => by_cases hw : w = haltWord <;> simp [listCells, lookupCell, hw, hnext j]

/-- Settles O45: inside SIZE the image reads as the listed words, and the address N is listed by none. -/
theorem loadedImageReadsBack : Obligations.LoadedImageReadsBack := by
  intro words k
  refine ⟨rfl, ?_⟩
  have hlookup := lookupCell_listCells words 0 k
  rw [Nat.zero_add] at hlookup
  split
  case isTrue hk => simp [Memory.read, imageOf, hlookup, hk, Nat.lt_succ_of_lt hk]
  case isFalse hk =>
    split
    case isTrue hlast =>
      subst hlast
      simp [Memory.read, imageOf, hlookup, haltWord]
    case isFalse hlast => exact (read_eq_none_iff _ _).mpr (show words.length + 1 ≤ k by omega)

/-- R9: every address of the image fits `AW` bits. -/
theorem size_le_two_pow_addrWidth (size : Nat) : size ≤ 2 ^ addrWidth size := by
  have hlt : size - 1 < 2 ^ addrWidth size := Nat.lt_log2_self
  omega

theorem addrWidth_le {size k : Nat} (hk : 1 ≤ k) (hsize : size ≤ 2 ^ k) : addrWidth size ≤ k := by
  by_cases hone : size - 1 = 0
  · simpa [addrWidth, hone] using hk
  · have hlog : (size - 1).log2 < k := (Nat.log2_lt hone).mpr (by omega)
    exact hlog

theorem toNat_ofNat_addrWidth {size p : Nat} (h : p < size) :
    (BitVec.ofNat (addrWidth size) p).toNat = p := by
  rw [BitVec.toNat_ofNat, Nat.mod_eq_of_lt (lt_of_lt_of_le h (size_le_two_pow_addrWidth size))]

/-- R144: `err_p` and `err_imm` give the operand back. -/
theorem operand_of_encodeOperand {opd : Option Int} (h : optEncodable opd = true) :
    (if (encodeOperand opd).1 then some (encodeOperand opd).2.toInt else none) = opd := by
  cases opd with
  | none => rfl
  | some v => exact congrArg some (toInt_ofInt_encodable h)

theorem imm_eq_zero_of_absent {opd : Option Int} (h : (encodeOperand opd).1 = false) :
    (encodeOperand opd).2 = 0#17 := by
  cases opd with
  | none => rfl
  | some v => nomatch h

/-- R35: no two causes have the same code. -/
theorem code_injective : Function.Injective ErrCause.code := by
  intro c d h
  cases c <;> cases d <;> simp [ErrCause.code] at h ⊢

/-- Settles O56. The width is one more than the logarithm of the last address. -/
theorem addressWidthIsLeast : Obligations.AddressWidthIsLeast :=
  fun size _ => ⟨Nat.le_add_left 1 _, size_le_two_pow_addrWidth size, fun _ => addrWidth_le⟩

/-- Settles O55: the invariant bounds the registers, the addresses and the operand of `ERR` by the widths
of their ports. -/
theorem portsShowTheState : Obligations.PortsShowTheState := by
  intro s h
  obtain ⟨-, haddr, hopd⟩ := h.err_wf
  refine ⟨toInt_ofInt_encodable (fitsW_encodable h.a_fits),
    toInt_ofInt_encodable (fitsW_encodable h.b_fits),
    toInt_ofInt_encodable (fitsW_encodable h.c_fits), toNat_ofNat_addrWidth h.pc_in_image,
    toNat_ofNat_addrWidth h.pc_in_image, toNat_ofNat_addrWidth haddr, operand_of_encodeOperand hopd,
    imm_eq_zero_of_absent, rfl, rfl, rfl, rfl, ?_, ?_, ?_, ?_⟩
  · exact code_injective.eq_iff (b := .none)
  · exact code_injective.eq_iff (b := .invalidOpcode)
  · exact code_injective.eq_iff (b := .invalidAddress)
  · exact code_injective.eq_iff (b := .invalidOperand)

theorem cycleEvents_of_outside {s : State} (hrunning : s.halted = false)
    (hread : s.mem.read s.pc = none) : cycleEvents s = [] := by
  simp [cycleEvents, hrunning, hread]

/-- R150: the outputs of an edge whose Cycle has the events. -/
theorem tracePorts_of_events {s : State} {addr : Nat} {opc : OpIndex} {opd : Option Int}
    {es : List Event} (h : cycleEvents s = .fetch addr opc opd :: es) :
    tracePorts false true s = some (renderEvents s.aw addr opc opd es) := by
  simp [tracePorts, h]

theorem tracePorts_of_no_events {s : State} (h : cycleEvents s = []) (rst stepEn : Bool) :
    tracePorts rst stepEn s = none := by
  simp [tracePorts, h]

/-- A bit that asks for one constructor of `Event` is set exactly when the constructor is among the
events. -/
theorem any_iff_exists_mem {α : Type} {kind : Event → Bool} {make : α → Event}
    (h : ∀ e, kind e = true ↔ ∃ x, e = make x) (es : List Event) :
    es.any kind = true ↔ ∃ x, make x ∈ es := by
  simp only [List.any_eq_true, h]
  exact ⟨fun ⟨_, hmem, x, hx⟩ => ⟨x, hx ▸ hmem⟩, fun ⟨x, hmem⟩ => ⟨_, hmem, x, rfl⟩⟩

theorem any_isWriteOf_iff (r : Reg) (es : List Event) :
    es.any (Event.isWriteOf r) = true ↔ ∃ v, .regWrite r v ∈ es :=
  any_iff_exists_mem (make := .regWrite r) (fun e => by cases e <;> simp [Event.isWriteOf]) es

theorem any_isJump_iff (es : List Event) : es.any Event.isJump = true ↔ ∃ t, .jumpTaken t ∈ es :=
  any_iff_exists_mem (make := .jumpTaken) (fun e => by cases e <;> simp [Event.isJump]) es

theorem any_isHalt_iff (es : List Event) : es.any Event.isHalt = true ↔ .halt ∈ es := by
  simpa using any_iff_exists_mem (kind := Event.isHalt) (make := fun _ : Unit => .halt)
    (fun e => by cases e <;> simp [Event.isHalt]) es

theorem any_isOverflow_iff (es : List Event) :
    es.any Event.isOverflow = true ↔ ∃ kind, .overflow kind ∈ es :=
  any_iff_exists_mem (make := .overflow) (fun e => by cases e <;> simp [Event.isOverflow]) es

theorem any_isError_iff (es : List Event) :
    es.any Event.isError = true ↔ ∃ cause addr opc opd, .error cause addr opc opd ∈ es := by
  simpa using any_iff_exists_mem (kind := Event.isError)
    (make := fun l : ErrCause × Nat × OpIndex × Option Int => .error l.1 l.2.1 l.2.2.1 l.2.2.2)
    (fun e => by cases e <;> simp [Event.isError]) es

/-- R62: `tr_p` is the word's `P`. -/
theorem isSome_operandOf (w : CellWord) : (operandOf w).isSome = presentBit w := by
  cases hp : presentBit w <;> simp [operandOf, hp]

/-- R62: and `tr_imm` its `imm`. -/
theorem ofInt_operandOf {w : CellWord} (h : (operandOf w).isSome = true) :
    (operandOf w).map (BitVec.ofInt 17) = some (immField w) := by
  rw [isSome_operandOf] at h
  simp [operandOf, h]

/-- R148, R149: the execute part has one event, or none but register writes. -/
theorem events_shape {s s' : State} {i : Instr} {es : List Event} (h : Effect s i s' es) :
    (∃ e, es = [e]) ∨ ∀ e ∈ es, ∃ r v, e = .regWrite r v := by
  cases h with
  | loadAi | loadBi | addAb | subAb | incA | overflow | taken | outside | reserved | halt =>
    exact .inl ⟨_, rfl⟩
  | noOp | cmpAb | notTaken => exact .inr nofun
  | swapAb | swapAc => exact .inr (by simp)

/-- R150: of one event at most one bit is set, and of register writes none but their own. -/
theorem renderEvents_exclusive {aw addr : Nat} {opc : OpIndex} {opd : Option Int} {es : List Event}
    {p : TracePorts aw} (hp : p = renderEvents aw addr opc opd es)
    (h : (∃ e, es = [e]) ∨ ∀ e ∈ es, ∃ r v, e = .regWrite r v) :
    [p.trJump, p.trHalt, p.trOvf, p.trErr].count true ≤ 1 ∧
    ([p.trJump, p.trHalt, p.trOvf, p.trErr].count true = 1 →
      p.trWrA = false ∧ p.trWrB = false ∧ p.trWrC = false) := by
  subst hp
  rcases h with ⟨e, rfl⟩ | hwrites
  · cases e <;> simp [renderEvents, Event.isWriteOf, Event.isJump, Event.isHalt, Event.isOverflow,
      Event.isError]
  · have hnone : ∀ kind : Event → Bool, (∀ r v, kind (.regWrite r v) = false) →
        es.any kind = false := by
      intro kind hkind
      rw [List.any_eq_false]
      intro e he
      obtain ⟨r, v, rfl⟩ := hwrites e he
      simp [hkind]
    simp [renderEvents, hnone Event.isJump fun _ _ => rfl, hnone Event.isHalt fun _ _ => rfl,
      hnone Event.isOverflow fun _ _ => rfl, hnone Event.isError fun _ _ => rfl]

/-- Settles O54: a Cycle has a Fetch event and is then rendered, each bit asks for one kind of event, and
the execute part has one event or only register writes. -/
theorem traceOutputsRenderTheEvents : Obligations.TraceOutputsRenderTheEvents := by
  refine ⟨fun rst stepEn s w hread => ?valid, fun s w p hinv hf hp => ?bits, fun s p hp => ?exclusive⟩
  case valid =>
    cases hhalted : s.halted with
    | true => simp [tracePorts_of_no_events (cycleEvents_of_halted hhalted)]
    | false =>
      obtain ⟨es, hevents, -⟩ := cycleEvents_fetch_first ⟨hhalted, hread⟩
      cases rst <;> cases stepEn <;> simp [tracePorts, hevents]
  case bits =>
    obtain ⟨es, hevents, -⟩ := cycleEvents_fetch_first hf
    obtain rfl := Option.some.inj (hp.symm.trans (tracePorts_of_events hevents))
    refine ⟨toNat_ofNat_addrWidth hinv.pc_in_image, rfl, isSome_operandOf w, ofInt_operandOf, ?_⟩
    simp only [hevents, renderEvents, any_isWriteOf_iff, any_isJump_iff, any_isHalt_iff,
      any_isOverflow_iff, any_isError_iff, List.mem_cons, reduceCtorEq, false_or, and_self]
  case exclusive =>
    rcases fetch_cases s with hhalted | ⟨w, hf⟩ | ⟨hrunning, hread⟩
    · simp [tracePorts_of_no_events (cycleEvents_of_halted hhalted)] at hp
    · obtain ⟨s', hstep⟩ := step_next_of_fetches hf
      rcases cycle_cases hf hstep with ⟨i, hd, -, heffect⟩ | ⟨e, hd, -⟩
      · have hrender := tracePorts_of_events (cycleEvents_of_decode hf hd)
        exact renderEvents_exclusive (Option.some.inj (hp.symm.trans hrender)) (events_shape heffect)
      · have hrender := tracePorts_of_events (cycleEvents_of_decode_error hf hd)
        exact renderEvents_exclusive (Option.some.inj (hp.symm.trans hrender)) (.inl ⟨_, rfl⟩)
    · simp [tracePorts_of_no_events (cycleEvents_of_outside hrunning hread)] at hp

end Sys2Proof.Machine
end

section
/-! The host's text (R72 to R76): the tokens of a line, the cells a text can assemble to, the integers that
operand tokens denote, and the obligations about them. -/

namespace Sys2Proof.Machine

theorem isBlankChar_iff (ch : Char) : isBlankChar ch = true ↔ ch = ' ' ∨ ch = '\t' := by
  simp [isBlankChar]

theorem isBlankChar_of_blanks {cs : List Char} (h : Blanks cs) : ∀ ch ∈ cs, isBlankChar ch = true :=
  fun ch hch => (isBlankChar_iff ch).mpr (h ch hch)

theorem isBlankChar_of_token {cs : List Char} (h : IsToken cs) : ∀ ch ∈ cs, isBlankChar ch = false := by
  intro ch hch
  obtain ⟨hspace, htab⟩ := h.2 ch hch
  rw [← Bool.not_eq_true, isBlankChar_iff]
  simp [hspace, htab]

/-- R73: every mnemonic is a token. -/
theorem isToken_of_namedRow {name : String} {opc : OpIndex} {i : Instr}
    (h : (name, opc, i) ∈ namedRows) : IsToken name.toList := by
  obtain ⟨hne, hchars, -⟩ := mnemonicTable_tokens _ ((mem_mnemonicTable_iff name opc).mpr ⟨i, h⟩)
  refine ⟨hne, fun ch hch => ?_⟩
  have hchar := hchars ch hch
  rw [← Bool.not_eq_true, isBlankChar_iff] at hchar
  exact not_or.mp hchar

/-- R64, R73: a token stands for the index of the named row that it spells. -/
theorem opcodeOf_eq_some_iff_namedRow (token : List Char) (opc : OpIndex) :
    opcodeOf token = some opc ↔ ∃ name i, token = name.toList ∧ (name, opc, i) ∈ namedRows := by
  simp only [opcodeOf_eq_some_iff, mem_mnemonicTable_iff, exists_and_left]

theorem opcodeOf_eq_none {token : List Char} (h : ∀ row ∈ namedRows, token ≠ row.1.toList) :
    opcodeOf token = none := by
  rw [Option.eq_none_iff_forall_ne_some]
  intro opc htoken
  obtain ⟨name, i, hname, hrow⟩ := (opcodeOf_eq_some_iff_namedRow token opc).mp htoken
  exact h _ hrow hname

theorem toCell_opc_of_namedRow : ∀ row ∈ namedRows, row.2.2.toCell.opc = row.2.1 := by decide

/-- R75: the one token of a line, with white space around it. -/
theorem tokensOf_one {lead token trail : List Char} (hlead : Blanks lead) (htoken : IsToken token)
    (htrail : Blanks trail) : tokensOf (lead ++ token ++ trail) = [token] := by
  rw [List.append_assoc, tokensOf_blanks_append (isBlankChar_of_blanks hlead),
    tokensOf_last htoken.1 (isBlankChar_of_token htoken) (isBlankChar_of_blanks htrail)]

/-- R75: the two tokens of a line, with white space around and between them. -/
theorem tokensOf_two {lead m sep o trail : List Char} (hlead : Blanks lead) (hm : IsToken m)
    (hsep : Blanks sep) (hne : sep ≠ []) (ho : IsToken o) (htrail : Blanks trail) :
    tokensOf (lead ++ m ++ sep ++ o ++ trail) = [m, o] := by
  rw [List.append_assoc, List.append_assoc, List.append_assoc,
    tokensOf_blanks_append (isBlankChar_of_blanks hlead),
    tokensOf_token_append hm.1 (isBlankChar_of_token hm) (isBlankChar_of_blanks hsep) hne,
    tokensOf_last ho.1 (isBlankChar_of_token ho) (isBlankChar_of_blanks htrail)]

section Line

variable {line m o : List Char} {opc : OpIndex} {opd : Option Int}

theorem parseLine_blank (h : tokensOf line = []) : parseLine line = .ok none := by
  rw [parseLine, h]

theorem parseLine_mnemonic (h : tokensOf line = [m]) (hm : opcodeOf m = some opc) :
    parseLine line = .ok (some ⟨opc, none⟩) := by
  simp only [parseLine, h, hm]

theorem parseLine_unknown (h : tokensOf line = [m]) (hm : opcodeOf m = none) :
    parseLine line = .error (.unknownMnemonic m) := by
  simp only [parseLine, h, hm]

theorem parseLine_operand (h : tokensOf line = [m, o]) (hm : opcodeOf m = some opc)
    (ho : operandToken o = .ok opd) : parseLine line = .ok (some ⟨opc, opd⟩) := by
  simp only [parseLine, h, hm, ho]

end Line

/-- Settles O57: the tokens of each form of line, and the parser's answer to them. -/
theorem assemblerLineGivesItsCell : Obligations.AssemblerLineGivesItsCell := by
  refine ⟨opcodeOf_eq_some_iff_namedRow, fun name opc i h => toCell_opc_of_namedRow _ h,
    fun lead sep trail hlead hsep hne htrail => ⟨?blank, fun token htoken hother => ?unknown,
      fun name opc i hrow => ⟨?mnemonic, fun token opd htoken hopd => ?operand⟩⟩⟩
  case blank => exact parseLine_blank (tokensOf_blanks (isBlankChar_of_blanks hlead))
  case unknown => exact parseLine_unknown (tokensOf_one hlead htoken htrail) (opcodeOf_eq_none hother)
  case mnemonic =>
    exact parseLine_mnemonic (tokensOf_one hlead (isToken_of_namedRow hrow) htrail)
      ((opcodeOf_eq_some_iff_namedRow _ _).mpr ⟨name, i, rfl, hrow⟩)
  case operand =>
    exact parseLine_operand
      (tokensOf_two hlead (isToken_of_namedRow hrow) hsep hne htoken htrail)
      ((opcodeOf_eq_some_iff_namedRow _ _).mpr ⟨name, i, rfl, hrow⟩) hopd

/-- R73, R75: what the parser's cells have in common: the index of a mnemonic and an operand that fits the
operand field. -/
def FromText (c : Cell) : Prop := c.opc ∈ mnemonicTable.map Prod.snd ∧ optEncodable c.opd = true

theorem operandToken_encodable {token : List Char} {opd : Option Int}
    (h : operandToken token = .ok opd) : optEncodable opd = true := by
  unfold operandToken at h
  split at h
  · cases h
    rfl
  · split at h
    · split at h
      case isTrue hfits =>
        cases h
        exact hfits
      case isFalse => cases h
    · cases h

theorem fromText_of_parseLine {line : List Char} {c : Cell} (h : parseLine line = .ok (some c)) :
    FromText c := by
  unfold parseLine at h
  split at h
  · cases h
  · split at h
    case h_1 opc hm =>
      cases h
      exact ⟨opcodeOf_mem hm, rfl⟩
    case h_2 => cases h
  · split at h
    case h_1 opc hm =>
      split at h
      case h_1 opd ho =>
        cases h
        exact ⟨opcodeOf_mem hm, operandToken_encodable ho⟩
      case h_2 => cases h
    case h_2 => cases h
  · cases h

theorem fromText_of_parseLines {lines : List (List Char)} {cells : List Cell}
    (h : parseLines lines = .ok cells) : ∀ c ∈ cells, FromText c := by
  induction lines generalizing cells with
  | nil =>
    cases h
    exact nofun
  | cons line rest ih =>
    rw [parseLines] at h
    split at h
    · cases h
    · next cell hline =>
      split at h
      · cases h
      · next more hrest =>
        cases h
        intro c hc
        rcases List.mem_append.mp hc with hc | hc
        · obtain rfl : cell = some c := Option.mem_toList.mp hc
          exact fromText_of_parseLine hline
        · exact ih hrest c hc

theorem fromText_of_parseFiles {texts : List (List Char)} {cells : List Cell}
    (h : parseFiles texts = .ok cells) : ∀ c ∈ cells, FromText c := by
  induction texts generalizing cells with
  | nil =>
    cases h
    exact nofun
  | cons text rest ih =>
    rw [parseFiles] at h
    split at h
    · cases h
    · next front htext =>
      split at h
      · cases h
      · next more hrest =>
        cases h
        intro c hc
        rcases List.mem_append.mp hc with hc | hc
        · exact fromText_of_parseLines htext c hc
        · exact ih hrest c hc

/-- Settles O58: the mnemonic table has no row with index 13 or 14, and an operand token gives an operand
that fits the operand field. -/
theorem assembledCellsSurviveEncoding : Obligations.AssembledCellsSurviveEncoding := by
  intro texts cells h c hc
  obtain ⟨hopc, hopd⟩ := fromText_of_parseFiles h c hc
  refine ⟨?_, ?_, decodeCell_encodeCell hopd⟩ <;>
    (intro hslot
     rw [hslot] at hopc
     exact absurd hopc (by decide))

theorem isDigit_iff (ch : Char) : ch.isDigit = true ↔ '0' ≤ ch ∧ ch ≤ '9' := by
  simp [Char.isDigit, Char.le_def]

theorem isDigits_iff {cs : List Char} (hne : cs ≠ []) : IsDigits cs ↔ cs.all Char.isDigit = true := by
  simp [IsDigits, hne, isDigit_iff]

/-- R75: the value of digits, as the parser accumulates it. -/
theorem decimalValue_eq_foldl (cs : List Char) :
    decimalValue cs = cs.foldl (fun n ch => 10 * n + (ch.toNat - 48)) 0 := by
  rw [decimalValue, Nat.ofDigits_eq_foldr, List.foldr_reverse, List.foldl_map]
  simp [Nat.add_comm]

theorem naturalOf_of_digits {cs : List Char} (h : IsDigits cs) :
    naturalOf cs = some (decimalValue cs) := by
  obtain ⟨ch, rest, rfl⟩ := List.exists_cons_of_ne_nil h.1
  rw [naturalOf, digitsFrom_eq, if_pos ((isDigits_iff h.1).mp h), decimalValue_eq_foldl]

theorem naturalOf_of_not_digits {cs : List Char} (h : ¬IsDigits cs) : naturalOf cs = none := by
  cases cs with
  | nil => rfl
  | cons ch rest => rw [naturalOf, digitsFrom_eq, if_neg (by rwa [← isDigits_iff (by simp)])]

theorem integerOf_neg (digits : List Char) :
    integerOf ('-' :: digits) = (naturalOf digits).map (fun n => -(n : Int)) := rfl

theorem integerOf_of_no_sign {token : List Char} (h : ∀ digits, token ≠ '-' :: digits) :
    integerOf token = (naturalOf token).map (fun n => (n : Int)) := by
  unfold integerOf
  split
  · next digits => exact absurd rfl (h digits)
  · rfl

theorem ne_sign_of_digits {cs : List Char} (h : IsDigits cs) (digits : List Char) :
    cs ≠ '-' :: digits := by
  rintro rfl
  exact absurd (h.2 '-' (by simp)) (by decide)

theorem ne_none_of_digits {cs : List Char} (h : IsDigits cs) : cs ≠ "None".toList := by
  rintro rfl
  exact absurd (h.2 'N' (by simp)) (by decide)

theorem integerOf_of_not_digits {token : List Char} (h : ¬IsDigits token)
    (hsigned : ∀ digits, IsDigits digits → token ≠ '-' :: digits) : integerOf token = none := by
  by_cases hsign : ∃ digits, token = '-' :: digits
  · obtain ⟨digits, rfl⟩ := hsign
    have hrest : ¬IsDigits digits := fun hdigits => hsigned digits hdigits rfl
    rw [integerOf_neg, naturalOf_of_not_digits hrest]
    rfl
  · rw [integerOf_of_no_sign fun digits hd => hsign ⟨digits, hd⟩, naturalOf_of_not_digits h]
    rfl

section Operand

variable {token : List Char} {v : Int}

theorem operandToken_of_encodable (hnone : token ≠ "None".toList) (hv : integerOf token = some v)
    (hfits : -65536 ≤ v ∧ v ≤ 65535) : operandToken token = .ok (some v) := by
  simp only [operandToken, if_neg hnone, hv, if_pos ((operandEncodable_iff v).mpr hfits)]

theorem operandToken_out_of_range (hnone : token ≠ "None".toList) (hv : integerOf token = some v)
    (hfits : ¬(-65536 ≤ v ∧ v ≤ 65535)) : operandToken token = .error (.operandOutOfRange v) := by
  rw [← operandEncodable_iff] at hfits
  simp only [operandToken, if_neg hnone, hv, if_neg hfits]

theorem operandToken_bad (hnone : token ≠ "None".toList) (hv : integerOf token = none) :
    operandToken token = .error (.badOperand token) := by
  simp only [operandToken, if_neg hnone, hv]

end Operand

/-- Settles O60: the integer of a token with and without sign, tested against the operand field; a token
that is neither has none. -/
theorem operandTokensDenoteTheirIntegers : Obligations.OperandTokensDenoteTheirIntegers := by
  refine ⟨if_pos rfl, fun digits h => ?integers, fun token hnone hdigits hsigned =>
    operandToken_bad hnone (integerOf_of_not_digits hdigits hsigned)⟩
  case integers =>
    have hnatural := naturalOf_of_digits h
    have hplain : integerOf digits = some (decimalValue digits : Int) := by
      rw [integerOf_of_no_sign (ne_sign_of_digits h), hnatural]
      rfl
    have hneg : integerOf ('-' :: digits) = some (-(decimalValue digits : Int)) := by
      rw [integerOf_neg, hnatural]
      rfl
    have hsign : '-' :: digits ≠ "None".toList := by simp
    exact ⟨fun hle => operandToken_of_encodable (ne_none_of_digits h) hplain (by omega),
      fun hlt => operandToken_out_of_range (ne_none_of_digits h) hplain (by omega),
      fun hle => operandToken_of_encodable hsign hneg (by omega),
      fun hlt => operandToken_out_of_range hsign hneg (by omega)⟩

end Sys2Proof.Machine
end
